-- ==== Sys2Proof/Word.lean ====
section
/-! DEFINITION. The word types of the block (00_scope.md R7, R10, R11): every value is an unsigned bit vector. -/

namespace Sys2Proof

/-- A command word or a response word (30_encoding.md R70, R82). -/
abbrev Word := BitVec 32

/-- The 10 stages of an `LFSR` register as a word: stage `k` is bit `k-1` (20_memory.md R53). -/
abbrev Stages := BitVec 10

/-- A set of one-based stage positions as a mask: bit `k-1` is position `k` (40_lfsr.md R100). -/
abbrev TapMask := BitVec 10

/-- One chip, or one bit an `LFSR` emits: 0 or 1 (41_ca_generator.md R122). -/
abbrev Chip := BitVec 1

/-- The satellite field of a command, `cmd[21:16]` (30_encoding.md R73). -/
abbrev Prn := BitVec 6

/-- The chip-index field of a command, `cmd[9:0]` (30_encoding.md R74). -/
abbrev ChipIdx := BitVec 10

/-- A `TAPROM` entry, the byte of tap `A` and tap `B` (30_encoding.md R84). -/
abbrev TapEntry := BitVec 8

/-- The control input `init, step` of a standalone instance, `init` the high bit (30_encoding.md R83). -/
abbrev Ctl := BitVec 2

end Sys2Proof
end

