-- ==== Sys2Proof/Config.lean ====
section
/-! DEFINITION. What is fixed for a machine (00_scope.md R7 to R9, 10_state.md R36), and the one value the spec
leaves open. -/

namespace Sys2Proof

/-- The block's configuration (00_scope.md R8): `TAP_TABLE`, exactly 32 entries, and `EAGER_BUILD`. -/
structure Config where
  tapTable   : Vector TapEntry 32
  eagerBuild : Bool
deriving DecidableEq, Repr

/-- A configuration as it is offered from outside, before it is known to be one the model gives meaning to
(60_exceptions.md R192): a table of any length, and the `OUT_TAPS` and `FB_TAPS` masks of each standalone instance. -/
structure RawConfig where
  tapTable   : List TapEntry
  eagerBuild : Bool
  lfsrs      : List (TapMask × TapMask)
deriving DecidableEq, Repr

/-- What a cell of `CODE` holds that nothing has written since reset: unspecified (10_state.md R28, R45;
93_implementation_defined.md I6, "any value"). A free value: it has no body, so nothing is known of it. Log 4. -/
opaque Config.unspecifiedChip : Nat → Chip

end Sys2Proof
end

