-- ==== Sys2Proof/Syntax.lean ====
section
/-! DEFINITION. The instructions: one constructor for each row of spec/opcode_table.json, the two formats they
arrive in (30_encoding.md R70), and the assembler's statements (R85, R86). -/

namespace Sys2Proof

/-- The 8 host commands and the 3 controls of the `LFSR` primitive (30_encoding.md R77, R83). The fields have the
widths of their encodings; whether a value is in its domain is decided when the command executes (R80). -/
inductive Instr where
  /-- `NOP` (43_system.md R160). -/
  | nop
  /-- `CA.SEL prn` (41_ca_generator.md R123). -/
  | caSel (prn : Prn)
  /-- `CA.STEP` (41_ca_generator.md R124). -/
  | caStep
  /-- `CA.RDST u`: 0 is `G1`, 1 is `G2` (41_ca_generator.md R125, 30_encoding.md R75). -/
  | caRdst (u : BitVec 1)
  /-- `ROM.BUILD` (42_code_rom.md R143). -/
  | romBuild
  /-- `ROM.READ prn, idx` (42_code_rom.md R144). -/
  | romRead (prn : Prn) (idx : ChipIdx)
  /-- `TAP.READ prn` (42_code_rom.md R145). -/
  | tapRead (prn : Prn)
  /-- `STATUS` (43_system.md R161). -/
  | status
  /-- `LFSR.HOLD` (40_lfsr.md R103). -/
  | lfsrHold
  /-- `LFSR.STEP` (40_lfsr.md R104). -/
  | lfsrStep
  /-- `LFSR.INIT` (40_lfsr.md R105). -/
  | lfsrInit
deriving DecidableEq, Repr

/-- The two instruction formats; they arrive on different inputs (30_encoding.md R70). -/
inductive Format where
  /-- 32 bits on the command port. -/
  | cmd32
  /-- 2 bits on the control input of a standalone instance. -/
  | lfsrCtl
deriving DecidableEq, Repr

/-- The bits of one instruction together with the input they arrive on. -/
inductive Bits where
  | cmd32 (w : Word)
  | lfsrCtl (c : Ctl)
deriving DecidableEq, Repr

/-- Why bits are no instruction. -/
inductive DecodeReject where
  /-- `OP` 0x8 to 0xF (30_encoding.md R78): ILLEGAL. -/
  | reservedOp (op : BitVec 4)
  /-- A 1 in a bit the command does not use as a field (30_encoding.md R76): ILLEGAL. -/
  | mustBeZero (op : BitVec 4)
  /-- `init` and `step` together (40_lfsr.md R106): refused. -/
  | initAndStep
deriving DecidableEq, Repr

/-- One row of the `CMD32` opcode map (30_encoding.md R77): a word `w` is the command exactly when
`w &&& mask = pattern`. -/
structure CmdRow where
  mnemonic : String
  pattern  : Word
  mask     : Word
deriving DecidableEq, Repr

/-- A statement of the assembler (30_encoding.md R85, R86), its operands as the numbers that were written. -/
inductive AsmStmt where
  | nop
  | caSel (prn : Nat)
  | caStep
  /-- `ca.rdst g1` or, where the flag is true, `ca.rdst g2`. -/
  | caRdst (g2 : Bool)
  | romBuild
  | romRead (prn idx : Nat)
  | tapRead (prn : Nat)
  | status
  /-- `.word w`: the word as written. -/
  | word (w : Nat)
  | lfsrHold
  | lfsrStep
  | lfsrInit
  /-- pseudo-instruction `ca.run prn, n`. -/
  | caRun (prn n : Nat)
  /-- pseudo-instruction `ca.code prn`. -/
  | caCode (prn : Nat)
  /-- pseudo-instruction `ca.rdall`. -/
  | caRdall
deriving DecidableEq, Repr

end Sys2Proof
end

