-- ==== Sys2Proof/WellFormed.lean ====
section
/-! DEFINITION. What is well formed: an instruction for the input it arrives on, a statement of the assembler, a
tap set, a configuration. Whether an operand VALUE is legal is another question (30_encoding.md R80): an instruction
with an illegal value is well formed and raises a fault when it executes. -/

namespace Sys2Proof

/-- The format each instruction belongs to (30_encoding.md R70). -/
def Instr.format : Instr → Format
  | .nop => .cmd32
  | .caSel _ => .cmd32
  | .caStep => .cmd32
  | .caRdst _ => .cmd32
  | .romBuild => .cmd32
  | .romRead _ _ => .cmd32
  | .tapRead _ => .cmd32
  | .status => .cmd32
  | .lfsrHold => .lfsrCtl
  | .lfsrStep => .lfsrCtl
  | .lfsrInit => .lfsrCtl

/-- An instruction is well formed on an input when it belongs to the format that input carries: the two formats
"share no encoding space" (30_encoding.md R70). Its fields fit by their types. -/
def Instr.wellFormedOn (f : Format) (i : Instr) : Bool := i.format = f

/-- The operand values inside their domain: `PRN` in 1..32 (30_encoding.md R73), `IDX` in 0..1022 (R74). -/
def Instr.legalOperands : Instr → Bool
  | .nop => true
  | .caSel prn => 1 ≤ prn.toNat && prn.toNat ≤ 32
  | .caStep => true
  | .caRdst _ => true
  | .romBuild => true
  | .romRead prn idx => 1 ≤ prn.toNat && prn.toNat ≤ 32 && idx.toNat ≤ 1022
  | .tapRead prn => 1 ≤ prn.toNat && prn.toNat ≤ 32
  | .status => true
  | .lfsrHold => true
  | .lfsrStep => true
  | .lfsrInit => true

/-- "The assembler rejects an operand outside its field's width: prn above 63, idx above 1023" (30_encoding.md R85);
a `.word` is a 32-bit word. -/
def AsmStmt.wellFormed : AsmStmt → Bool
  | .nop => true
  | .caSel prn => prn ≤ 63
  | .caStep => true
  | .caRdst _ => true
  | .romBuild => true
  | .romRead prn idx => prn ≤ 63 && idx ≤ 1023
  | .tapRead prn => prn ≤ 63
  | .status => true
  | .word w => w < 2 ^ 32
  | .lfsrHold => true
  | .lfsrStep => true
  | .lfsrInit => true
  | .caRun prn _ => prn ≤ 63
  | .caCode prn => prn ≤ 63
  | .caRdall => true

/-- A tap set in mask form is well formed exactly when the mask is not 0 (40_lfsr.md R100). -/
def tapMaskWellFormed (m : TapMask) : Bool := m ≠ 0

/-- A configuration the model gives meaning to (60_exceptions.md R192): 32 entries, and no empty tap set. -/
def RawConfig.wellFormed (c : RawConfig) : Bool :=
  c.tapTable.length = 32 && c.lfsrs.all fun m => tapMaskWellFormed m.1 && tapMaskWellFormed m.2

end Sys2Proof
end

