-- ==== Sys2Proof/Decode.lean ====
section
/-! DEFINITION. Decoding, total on all bits and rejecting by name (30_encoding.md R76 to R80, R83), and after it the
encoder, written from the same encoding tables. -/

namespace Sys2Proof

/-! ### The opcode map (30_encoding.md R77) -/

def rowNop      : CmdRow := ⟨"NOP",       0x00000000, 0xFFFFFFFF⟩
def rowCaSel    : CmdRow := ⟨"CA.SEL",    0x10000000, 0xFFC0FFFF⟩
def rowCaStep   : CmdRow := ⟨"CA.STEP",   0x20000000, 0xFFFFFFFF⟩
def rowCaRdst   : CmdRow := ⟨"CA.RDST",   0x30000000, 0xFFFFFFFE⟩
def rowRomBuild : CmdRow := ⟨"ROM.BUILD", 0x40000000, 0xFFFFFFFF⟩
def rowRomRead  : CmdRow := ⟨"ROM.READ",  0x50000000, 0xFFC0FC00⟩
def rowTapRead  : CmdRow := ⟨"TAP.READ",  0x60000000, 0xFFC0FFFF⟩
def rowStatus   : CmdRow := ⟨"STATUS",    0x70000000, 0xFFFFFFFF⟩

/-- The eight rows, in the order of their `OP`. -/
def cmdRows : List CmdRow :=
  [rowNop, rowCaSel, rowCaStep, rowCaRdst, rowRomBuild, rowRomRead, rowTapRead, rowStatus]

/-- The mnemonic of each instruction's row in spec/opcode_table.json. -/
def Instr.mnemonic : Instr → String
  | .nop => "NOP"
  | .caSel _ => "CA.SEL"
  | .caStep => "CA.STEP"
  | .caRdst _ => "CA.RDST"
  | .romBuild => "ROM.BUILD"
  | .romRead _ _ => "ROM.READ"
  | .tapRead _ => "TAP.READ"
  | .status => "STATUS"
  | .lfsrHold => "LFSR.HOLD"
  | .lfsrStep => "LFSR.STEP"
  | .lfsrInit => "LFSR.INIT"

/-! ### The fields of a command word (30_encoding.md R71) -/

/-- `OP`, bits 31..28. -/
def opField (w : Word) : BitVec 4 := w.extractLsb' 28 4
/-- `PRN`, bits 21..16 (R73). -/
def prnField (w : Word) : Prn := w.extractLsb' 16 6
/-- `IDX`, bits 9..0 (R74). -/
def idxField (w : Word) : ChipIdx := w.extractLsb' 0 10
/-- `U`, bit 0 (R75). -/
def uField (w : Word) : BitVec 1 := w.extractLsb' 0 1

/-! ### Decoding -/

/-- `i` if every bit of `w` that the row fixes is as the row fixes it, else ILLEGAL (30_encoding.md R76). -/
def matchRow (w : Word) (r : CmdRow) (i : Instr) : Except DecodeReject Instr :=
  if w &&& r.mask = r.pattern then .ok i else .error (.mustBeZero (opField w))

/-- The decoder of the command port (30_encoding.md R80). -/
def decodeCmd (w : Word) : Except DecodeReject Instr :=
  match (opField w).toNat with
  | 0 => matchRow w rowNop .nop
  | 1 => matchRow w rowCaSel (.caSel (prnField w))
  | 2 => matchRow w rowCaStep .caStep
  | 3 => matchRow w rowCaRdst (.caRdst (uField w))
  | 4 => matchRow w rowRomBuild .romBuild
  | 5 => matchRow w rowRomRead (.romRead (prnField w) (idxField w))
  | 6 => matchRow w rowTapRead (.tapRead (prnField w))
  | 7 => matchRow w rowStatus .status
  | _ => .error (.reservedOp (opField w))

/-- The decoder of a standalone instance's control input (30_encoding.md R83, 40_lfsr.md R106). -/
def decodeCtl (c : Ctl) : Except DecodeReject Instr :=
  match c.toNat with
  | 0 => .ok .lfsrHold
  | 1 => .ok .lfsrStep
  | 2 => .ok .lfsrInit
  | _ => .error .initAndStep

/-- Decoding by the input the bits arrive on (30_encoding.md R70). -/
def decode : Bits → Except DecodeReject Instr
  | .cmd32 w => decodeCmd w
  | .lfsrCtl c => decodeCtl c

/-! ### Encoding -/

/-- A command word from its fields, in the layout of 30_encoding.md R71. -/
def commandWord (op : BitVec 4) (prn : Prn) (idx : ChipIdx) : Word :=
  op ++ 0#6 ++ prn ++ 0#6 ++ idx

/-- The bits of an instruction (30_encoding.md R77, R83). -/
def encode : Instr → Bits
  | .nop => .cmd32 (commandWord 0x0 0 0)
  | .caSel prn => .cmd32 (commandWord 0x1 prn 0)
  | .caStep => .cmd32 (commandWord 0x2 0 0)
  | .caRdst u => .cmd32 (commandWord 0x3 0 (0#9 ++ u))
  | .romBuild => .cmd32 (commandWord 0x4 0 0)
  | .romRead prn idx => .cmd32 (commandWord 0x5 prn idx)
  | .tapRead prn => .cmd32 (commandWord 0x6 prn 0)
  | .status => .cmd32 (commandWord 0x7 0 0)
  | .lfsrHold => .lfsrCtl 0b00
  | .lfsrStep => .lfsrCtl 0b01
  | .lfsrInit => .lfsrCtl 0b10

/-! ### Words numbered as the opcode table numbers them -/

/-- The bits that an opcode-table word of `nbits` bits stands for: 32 bits are a command word; a control value has 2
bits, which are one byte when whole bytes are counted. Nothing else is an instruction of this hardware. Log 13. -/
def tableBits (nbits w : Nat) : Option Bits :=
  if nbits = 32 then
    if w < 2 ^ 32 then some (.cmd32 (BitVec.ofNat 32 w)) else none
  else if 2 ≤ nbits ∧ nbits ≤ 8 then
    if w < 4 then some (.lfsrCtl (BitVec.ofNat 2 w)) else none
  else none

/-- The instruction the decoder reads from an opcode-table word, or none where it refuses. -/
def decodeTableWord (nbits w : Nat) : Option Instr :=
  match tableBits nbits w with
  | none => none
  | some b =>
    match decode b with
    | .ok i => some i
    | .error _ => none

end Sys2Proof
end

