-- ==== Sys2Proof/Machine/Taps.lean ====
section
/-! DEFINITION. Stages, tap sets, parity and the shift of a 10-stage register (40_lfsr.md R100 to R104), the constant
tap sets of `G1` and `G2` (41_ca_generator.md R120, R121), and the default `TAP_TABLE` (20_memory.md R51). -/

namespace Sys2Proof.Machine

/-- Stage `k`, one-based, of a register; of a mask, whether position `k` is in the set (20_memory.md R53). -/
def stage (s : Stages) (k : Nat) : Bool := s.getLsbD (k - 1)

/-- The mask of a set of one-based positions (40_lfsr.md R100). -/
def tapMask (positions : List Nat) : TapMask :=
  positions.foldl (fun m k => m ||| (1#10 <<< (k - 1))) 0

/-- The positions of the stages, 1 to 10. -/
def positions : List Nat := [1, 2, 3, 4, 5, 6, 7, 8, 9, 10]

/-- `parity(s, T)`: the XOR of `s[k]` over every `k` in `T` (40_lfsr.md R101). -/
def parity (s : Stages) (t : TapMask) : Chip :=
  BitVec.ofBool (positions.foldl (fun b k => b ^^ (stage t k && stage s k)) false)

/-- The register after one step (40_lfsr.md R104): every stage moves one position up, stage 10 is discarded, and the
feedback, taken from the register before the step, becomes stage 1. -/
def shift (fb : TapMask) (s : Stages) : Stages :=
  (s <<< 1) ||| (parity s fb).setWidth 10

/-- The register after `n` steps. -/
def shiftN (fb : TapMask) : Nat → Stages → Stages
  | 0, s => s
  | n + 1, s => shift fb (shiftN fb n s)

/-- `SEED`: every stage 1 (00_scope.md R7, 10_state.md R21). -/
def seed : Stages := 0x3FF

/-- `G1`'s output taps (41_ca_generator.md R120). -/
def g1OutTaps : TapMask := tapMask [10]

/-- `G1`'s feedback taps (41_ca_generator.md R120). -/
def g1FbTaps : TapMask := tapMask [3, 10]

/-- `G2`'s feedback taps, the same for all satellites (41_ca_generator.md R121). -/
def g2FbTaps : TapMask := tapMask [2, 3, 6, 8, 9, 10]

/-- The default `TAP_TABLE`, satellite 1 first (20_memory.md R51). Entry 1 is the source's; entries 2 to 32 the spec
itself gives from general knowledge. PRESUMED, log 12. -/
def defaultTapTable : Vector TapEntry 32 :=
  #v[0x26, 0x37, 0x48, 0x59, 0x19, 0x2A, 0x18, 0x29,
     0x3A, 0x23, 0x34, 0x56, 0x67, 0x78, 0x89, 0x9A,
     0x14, 0x25, 0x36, 0x47, 0x58, 0x69, 0x13, 0x46,
     0x57, 0x68, 0x79, 0x8A, 0x16, 0x27, 0x38, 0x49]

/-- The default configuration: the table above, and no eager build (00_scope.md R8). -/
def defaultConfig : Config := { tapTable := defaultTapTable, eagerBuild := false }

end Sys2Proof.Machine
end

