-- ==== Sys2Proof/Machine/State.lean ====
section
/-! DEFINITION. The state of the block (10_state.md), as plain data, and its value at reset (R45). -/

namespace Sys2Proof.Machine

/-- `ROM_STATE` (10_state.md R30): the lifecycle of the code table. -/
inductive RomState where
  | uninit
  | building
  | built
  | failed
deriving DecidableEq, Repr

/-- The fault codes a command or the builder can report (60_exceptions.md R171). Code 0, NONE, is no fault. -/
inductive FaultCode where
  /-- A word that is no command. -/
  | illegalCmd
  /-- `PRN` not in 1..32. -/
  | badPrn
  /-- `IDX` = 1023. -/
  | badIndex
  /-- `CA.STEP` with no satellite selected. -/
  | noSel
  /-- `ROM.READ` of a table whose build failed. -/
  | romFailed
  /-- Tap `A` of an entry not in 1..10. -/
  | tapRangeA
  /-- Tap `B` of an entry not in 1..10. -/
  | tapRangeB
  /-- An entry with `A = B`. -/
  | tapDup
deriving DecidableEq, Repr

/-- The build cursor (10_state.md R27): what the builder does next (42_code_rom.md R141). Satellite `p` is the index
`p - 1`. -/
inductive Cursor where
  /-- Check the entry of this satellite. -/
  | check (sat : Fin 32)
  /-- Construct fresh instances for this satellite. -/
  | construct (sat : Fin 32)
  /-- Compute and write this chip of this satellite. -/
  | chip (sat : Fin 32) (idx : Fin 1023)
  /-- Every chip is written: make the table visible. -/
  | publish
deriving DecidableEq, Repr

/-- A response, `RSP_ERR` and `RSP_DATA` (30_encoding.md R82). -/
structure Response where
  err  : Bool
  data : Word
deriving DecidableEq, Repr

/-- A standalone `LFSR` instance (40_lfsr.md R100, R112): its two constant tap sets and its register. `emitted` is the
model's own: the bit the instance emitted in its last clock, if that clock emitted one. Log 9. -/
structure LfsrUnit where
  outTaps : TapMask
  fbTaps  : TapMask
  s       : Stages
  emitted : Option Chip
deriving DecidableEq, Repr

/-- Whose step comes next (10_state.md R20: the agents' steps interleave in any order). Log 1. -/
inductive Turn where
  /-- The host presents its next command, which runs, or the held command is tried again. -/
  | host
  /-- The builder takes one or more moves as one step, a number for each: how many chip steps beyond one the move takes
  if it is one of chip steps. Log 6. -/
  | builder (first : Nat) (more : List Nat)
  /-- One clock of a standalone instance with its inputs `rst` and `init, step` (40_lfsr.md R112). -/
  | lfsr (unit : Nat) (rst : Bool) (ctl : Ctl)
  /-- The block's reset input is asserted (70_reset_and_hazards.md R200). -/
  | rst
deriving DecidableEq, Repr

/-- One cell of `CODE`: its bit address and its chip (20_memory.md R50, R52). -/
abbrev CodeCell := Nat × Chip

/-- `CODE` as the list of the cells written since reset, addresses strictly rising. A cell that is not listed is
unspecified (10_state.md R28). Log 4. -/
abbrev CodeMemory := List CodeCell

structure State where
  /-- `G1.s` (10_state.md R23). -/
  g1 : Stages
  /-- `G2.s` (R24). -/
  g2 : Stages
  /-- `G2_OUT`: `G2`'s output taps (R24). -/
  g2Out : TapMask
  /-- `SEL_PRN`: the selected satellite, 0 for none (R25). -/
  selPrn : Prn
  /-- `CHIP_CNT`: the index of the chip the next `CA.STEP` emits (R26). -/
  chipCnt : BitVec 10
  /-- `ROM_STATE` (R30). -/
  romState : RomState
  /-- `CODE` (R28). -/
  code : CodeMemory
  /-- `ERR`: the sticky fault flag (R31). -/
  err : Bool
  /-- `ERR_CODE` (R32). -/
  errCode : BitVec 4
  /-- `ERR_PRN` (R33). -/
  errPrn : BitVec 6
  /-- The head command of the command port: presented and not yet completed (R35). -/
  port : Option Word
  /-- The response to the last completed command, until the host presents the next (30_encoding.md R82). Log 2. -/
  rsp : Option Response
  /-- The builder's `B1.s` (R27). -/
  b1 : Stages
  /-- The builder's `B2.s` (R27). -/
  b2 : Stages
  /-- The builder's `B2_OUT` (R27). -/
  b2Out : TapMask
  /-- The build cursor (R27). -/
  cursor : Cursor
  /-- The standalone `LFSR` instances (R20, R21). -/
  lfsrs : List LfsrUnit
  /-- The configuration: constant, no state of the spec (R36). Log 3. -/
  cfg : Config
  /-- The model's own: the eager transition of 42_code_rom.md R148 is still to come. Log 11. -/
  eagerDue : Bool
  /-- The model's own: which standalone instance samples its control in this step. Log 8. -/
  lfsrAt : Nat
  /-- The model's own: the commands the host is going to present, in order. Log 2. -/
  hostQueue : List Word
  /-- The model's own: the turns to come. Log 1. -/
  turns : List Turn
deriving DecidableEq, Repr

/-- Why the machine would stop with a fault: never. "There is no trap. The block does not stop" (60_exceptions.md
R170): every fault of the spec is a response and a latch, a next state. Log 15. -/
inductive Fault : Type
deriving DecidableEq, Repr

/-- Why a step, or a configuration, has no meaning (60_exceptions.md R192). All are safe: "All of them err toward
unprovable". -/
inductive Refusal where
  /-- Raised by `exec` alone, for an instruction that has no meaning yet; no arm raises it now. Safe. -/
  | notModelled (mnemonic : String)
  /-- Raised by a standalone instance whose control is `11` (40_lfsr.md R106). Safe. -/
  | lfsrInitAndStep
  /-- Raised by the three `LFSR` operations on an instance with an empty tap set, which is never built (40_lfsr.md
  R100), and by `State.build` for such a configuration. Safe. -/
  | emptyTapSet
  /-- Raised by the three `LFSR` operations when no standalone instance has the number addressed. Safe. Log 8. -/
  | noSuchInstance
  /-- Raised by `State.build` for a `TAP_TABLE` that does not have exactly 32 entries (60_exceptions.md R192). Safe. -/
  | tapTableCount
deriving DecidableEq, Repr

/-- A standalone instance right after construction: all ones (10_state.md R21). -/
def LfsrUnit.fresh (outTaps fbTaps : TapMask) : LfsrUnit :=
  { outTaps := outTaps, fbTaps := fbTaps, s := seed, emitted := none }

/-- The state after reset, for a configuration and its standalone instances (10_state.md R45). The builder's registers
have no value there: DESIGN CHOICE, log 5. -/
def State.initial (cfg : Config) (lfsrs : List LfsrUnit) : State where
  g1 := seed
  g2 := seed
  g2Out := 0
  selPrn := 0
  chipCnt := 0
  romState := .uninit
  code := []
  err := false
  errCode := 0
  errPrn := 0
  port := none
  rsp := none
  b1 := 0
  b2 := 0
  b2Out := 0
  cursor := .check 0
  lfsrs := lfsrs
  cfg := cfg
  eagerDue := cfg.eagerBuild
  lfsrAt := 0
  hostQueue := []
  turns := []

/-- The machine right after reset, with the default configuration (00_scope.md R8) and one standalone instance with
`G1`'s tap sets (95_test_vectors.md P7; DESIGN CHOICE, log 8). -/
def State.reset : State :=
  State.initial defaultConfig [LfsrUnit.fresh g1OutTaps g1FbTaps]

end Sys2Proof.Machine
end

