-- ==== Sys2Proof/Machine/Flags.lean ====
section
/-! DEFINITION. The block's only flag, the sticky error latch (10_state.md R31 to R33, R44), the numbers of the fault
codes and of `ROM_STATE`, and the status word (R34). -/

namespace Sys2Proof.Machine

/-- The encoding of `ROM_STATE` (10_state.md R30). -/
def RomState.bits : RomState → BitVec 2
  | .uninit => 0
  | .building => 1
  | .built => 2
  | .failed => 3

/-- The number of a fault code (60_exceptions.md R171). -/
def FaultCode.bits : FaultCode → BitVec 4
  | .illegalCmd => 1
  | .badPrn => 2
  | .badIndex => 3
  | .noSel => 4
  | .romFailed => 5
  | .tapRangeA => 6
  | .tapRangeB => 7
  | .tapDup => 8

/-- `latch(code, prn)`: record the first fault after reset (60_exceptions.md R182). -/
def latch (c : FaultCode) (prn : BitVec 6) (s : State) : State :=
  if s.err then s else { s with err := true, errCode := c.bits, errPrn := prn }

/-- `STATUS` (10_state.md R34). -/
def statusWord (s : State) : Word :=
  s.errPrn ++ s.chipCnt ++ 0#2 ++ s.selPrn ++ s.errCode ++ 0#1 ++ BitVec.ofBool s.err ++ s.romState.bits

end Sys2Proof.Machine
end

