-- ==== Sys2Proof/Machine/Operands.lean ====
section
/-! DEFINITION. The operand forms: the satellite field, the chip index, and the two taps of a `TAPROM` entry
(30_encoding.md R73, R74, R84), with the check of an entry (42_code_rom.md R140). -/

namespace Sys2Proof.Machine

/-- The table index of the satellite a `PRN` field names, `p - 1`, if it is in 1..32 (30_encoding.md R73). -/
def satOfPrn (prn : Prn) : Option (Fin 32) :=
  if h : 1 ≤ prn.toNat ∧ prn.toNat ≤ 32 then some ⟨prn.toNat - 1, by omega⟩ else none

/-- The satellite identifier, 1..32, of a table index. -/
def prnOfSat (sat : Fin 32) : Prn := BitVec.ofNat 6 (sat.val + 1)

/-- The chip an `IDX` field names, if it is in 0..1022 (30_encoding.md R74). -/
def chipOfIdx (idx : ChipIdx) : Option (Fin 1023) :=
  if h : idx.toNat ≤ 1022 then some ⟨idx.toNat, by omega⟩ else none

/-- Tap `A` of an entry, bits 7..4 (30_encoding.md R84). -/
def tapA (e : TapEntry) : Nat := (e.extractLsb' 4 4).toNat

/-- Tap `B` of an entry, bits 3..0 (30_encoding.md R84). -/
def tapB (e : TapEntry) : Nat := (e.extractLsb' 0 4).toNat

/-- What is wrong with an entry, if anything: `A`, then `B`, then their distinctness (42_code_rom.md R140). -/
def checkEntry (e : TapEntry) : Option FaultCode :=
  if ¬ (1 ≤ tapA e ∧ tapA e ≤ 10) then some .tapRangeA
  else if ¬ (1 ≤ tapB e ∧ tapB e ≤ 10) then some .tapRangeB
  else if tapA e = tapB e then some .tapDup
  else none

/-- The output-tap mask of an entry (41_ca_generator.md R121). -/
def entryMask (e : TapEntry) : TapMask :=
  (1#10 <<< (tapA e - 1)) ||| (1#10 <<< (tapB e - 1))

/-- The bit address in `CODE` of chip `i` of a satellite, `(p - 1) * 1023 + i` (20_memory.md R52). -/
def codeAddr (sat : Fin 32) (i : Nat) : Nat := sat.val * 1023 + i

end Sys2Proof.Machine
end

