-- ==== Sys2Proof/Machine/Ops.lean ====
section
/-! DEFINITION. The named operations over the tables, the command port and the registers, and the ONE operation that
raises a fault (60_exceptions.md R170). There is no return from a fault: "There is no trap-return command" (R185). -/

namespace Sys2Proof.Machine

/-! ### CODE and TAPROM -/

/-- The chip a listed cell holds; none for a cell nothing has written since reset. -/
def codeRead : CodeMemory → Nat → Option Chip
  | [], _ => none
  | (a, v) :: rest, b => if a = b then some v else codeRead rest b

/-- The cells of a run of chips, the first at bit address `a`. -/
def codeRun : Nat → List Chip → CodeMemory
  | _, [] => []
  | a, v :: vs => (a, v) :: codeRun (a + 1) vs

/-- A run of writes at rising addresses from `a` on: every cell outside the run stays. -/
def codeWriteRun (m : CodeMemory) (a : Nat) (vs : List Chip) : CodeMemory :=
  m.filter (fun c => c.1 < a) ++ codeRun a vs ++ m.filter (fun c => a + vs.length ≤ c.1)

/-- `MemWrite(a, 1, v)` (00_scope.md R12). -/
def codeWrite (m : CodeMemory) (a : Nat) (v : Chip) : CodeMemory := codeWriteRun m a [v]

/-- Every address of the list is `low` or above, and they rise strictly. -/
def codeRising (low : Nat) : CodeMemory → Bool
  | [] => true
  | (a, _) :: rest => low ≤ a && codeRising (a + 1) rest

/-- The canonical form of `CODE`: addresses strictly rising, all inside the address space 0..32735 (20_memory.md R50). -/
def codeWf (m : CodeMemory) : Bool := codeRising 0 m && m.all fun c => c.1 < 32736

/-- `MemRead(a, 1)` (00_scope.md R12): the chip at a bit address; unspecified where nothing was written (log 4). -/
def codeChip (s : State) (a : Nat) : Chip :=
  match codeRead s.code a with
  | some v => v
  | none => Config.unspecifiedChip a

/-- `TapRead(p)` (00_scope.md R12): the entry of a satellite, which no step changes (10_state.md R29). -/
def tapEntry (s : State) (sat : Fin 32) : TapEntry := s.cfg.tapTable[sat]

/-! ### The command port -/

/-- `respond(d)`: the current command completes with `RSP_ERR = 0` (00_scope.md R12). -/
def respond (d : Word) (s : State) : State := { s with port := none, rsp := some ⟨false, d⟩ }

/-- `raise Fault(code, prn)`: the current command completes with `RSP_ERR = 1` and the code, the latch runs, and
nothing else changes (60_exceptions.md R170). -/
def raiseFault (c : FaultCode) (prn : BitVec 6) (s : State) : State :=
  { latch c prn s with port := none, rsp := some ⟨true, c.bits.setWidth 32⟩ }

/-- `hold`: the current command does not complete; it stays at the head of the port (00_scope.md R12). -/
def hold (s : State) : State := { s with rsp := none }

/-! ### The registers of CAGEN and the builder -/

/-- `ROM_STATE <- BUILDING`, only from UNINIT (20_memory.md R61); the builder then begins with the first check
(42_code_rom.md R141). -/
def startBuild (s : State) : State :=
  if s.romState = .uninit then { s with romState := .building, cursor := .check 0 } else s

/-- The chip of the two registers before a step (41_ca_generator.md R122). -/
def chipOf (g1 g2 : Stages) (out : TapMask) : Chip := parity g1 g1OutTaps ^^^ parity g2 out

/-- Select a satellite: fresh `G1` and `G2` (41_ca_generator.md R123). -/
def selectSat (prn : Prn) (e : TapEntry) (s : State) : State :=
  { s with g1 := seed, g2 := seed, g2Out := entryMask e, selPrn := prn, chipCnt := 0 }

/-- `G1` and `G2` step in lockstep and the count goes on (41_ca_generator.md R124, R126). -/
def stepCaGen (s : State) : State :=
  { s with g1 := shift g1FbTaps s.g1, g2 := shift g2FbTaps s.g2,
           chipCnt := BitVec.ofNat 10 ((s.chipCnt.toNat + 1) % 1023) }

/-! ### Standalone instances -/

/-- `out` (40_lfsr.md R102). -/
def LfsrUnit.out (u : LfsrUnit) : Chip := parity u.s u.outTaps

/-- `fb` (40_lfsr.md R102). -/
def LfsrUnit.fb (u : LfsrUnit) : Chip := parity u.s u.fbTaps

/-- `state` (40_lfsr.md R102). -/
def LfsrUnit.state (u : LfsrUnit) : Stages := u.s

/-- One clock of the standalone instance that samples its control in this step. An instance with an empty tap set is
never built and has no steps (40_lfsr.md R100, 60_exceptions.md R192). -/
def onUnit (f : LfsrUnit → LfsrUnit) (s : State) : Host.Outcome State Fault Refusal :=
  match s.lfsrs[s.lfsrAt]? with
  | none => .refused .noSuchInstance
  | some u =>
    if u.outTaps = 0 ∨ u.fbTaps = 0 then .refused .emptyTapSet
    else .next { s with lfsrs := s.lfsrs.set s.lfsrAt (f u) }

end Sys2Proof.Machine
end

