-- ==== Sys2Proof/Machine/Builder.lean ====
section
/-! DEFINITION. The builder, `PRNROM`'s private agent (42_code_rom.md R141), and the eager start (R148). The builder
never touches `CAGEN` (20_memory.md R65). -/

namespace Sys2Proof.Machine

/-- The next satellite's cursor, or what follows the last satellite. -/
def afterSat (sat : Fin 32) (next : Fin 32 → Cursor) (last : Cursor) : Cursor :=
  if h : sat.val + 1 < 32 then next ⟨sat.val + 1, h⟩ else last

/-- Check one entry: a malformed one is latched and fails the build in the same step (60_exceptions.md R183). -/
def builderCheck (sat : Fin 32) (s : State) : State :=
  match checkEntry (tapEntry s sat) with
  | some c => { latch c (prnOfSat sat) s with romState := .failed }
  | none => { s with cursor := afterSat sat .check (.construct 0) }

/-- Fresh instances for one satellite (42_code_rom.md R141). -/
def builderConstruct (sat : Fin 32) (s : State) : State :=
  { s with b1 := seed, b2 := seed, b2Out := entryMask (tapEntry s sat), cursor := .chip sat 0 }

/-- The chips of `n` chip steps: each is taken from the registers before their shift (70_reset_and_hazards.md R204). -/
def chipRun : Nat → Stages → Stages → TapMask → List Chip
  | 0, _, _, _ => []
  | n + 1, b1, b2, out => chipOf b1 b2 out :: chipRun n (shift g1FbTaps b1) (shift g2FbTaps b2) out

/-- Where the build goes on after `n` more chips of a satellite. -/
def afterChips (sat : Fin 32) (i : Fin 1023) (n : Nat) : Cursor :=
  if h : i.val + n < 1023 then .chip sat ⟨i.val + n, h⟩ else afterSat sat .construct .publish

/-- `n` chip steps of one satellite, one `MemWrite` each (42_code_rom.md R141). -/
def builderChips (sat : Fin 32) (i : Fin 1023) (n : Nat) (s : State) : State :=
  { s with
    code := codeWriteRun s.code (codeAddr sat i) (chipRun n s.b1 s.b2 s.b2Out)
    b1 := shiftN g1FbTaps n s.b1
    b2 := shiftN g2FbTaps n s.b2
    cursor := afterChips sat i n }

/-- One move of the builder, which moves only in BUILDING (42_code_rom.md R141): check one entry, construct one
satellite's instances, take `more + 1` chip steps of the satellite (or all that are left), or publish the table. A build
that has ended leaves `B1`, `B2`, `B2_OUT` and the cursor as they last were: the spec leaves them unspecified outside a
build (10_state.md R27, 93_implementation_defined.md I7). DESIGN CHOICE, log 5. -/
def builderMove (more : Nat) (s : State) : State :=
  match s.romState with
  | .building =>
    match s.cursor with
    | .check sat => builderCheck sat s
    | .construct sat => builderConstruct sat s
    | .chip sat i => builderChips sat i (min (more + 1) (1023 - i.val)) s
    | .publish => { s with romState := .built }
  | .uninit => s
  | .built => s
  | .failed => s

/-- Moves of the builder, one after the other. -/
def builderMoves : List Nat → State → State
  | [], s => s
  | more :: rest, s => builderMoves rest (builderMove more s)

/-- A builder step: one or more moves, so that a build takes a finite, positive number of builder steps, and any such
number up to the number of its moves (42_code_rom.md R141, 70_reset_and_hazards.md R209, `BUILD_STEPS`). Log 6. -/
def builderStep (first : Nat) (more : List Nat) (s : State) : State := builderMoves (first :: more) s

/-- The first step after reset when `EAGER_BUILD` is true (42_code_rom.md R148). -/
def eagerStart (s : State) : State := { startBuild s with eagerDue := false }

end Sys2Proof.Machine
end

