-- ==== Sys2Proof/Machine/CaGen.lean ====
section
/-! DEFINITION. The commands of `CAGEN` (41_ca_generator.md R123 to R125). -/

namespace Sys2Proof.Machine

/-- `CA.SEL prn` (41_ca_generator.md R123). -/
def execCaSel (prn : Prn) (s : State) : Host.Outcome State Fault Refusal :=
  match satOfPrn prn with
  | none => .next (raiseFault .badPrn prn s)
  | some sat =>
    match checkEntry (tapEntry s sat) with
    | some c => .next (raiseFault c prn s)
    | none => .next (respond 0 (selectSat prn (tapEntry s sat) s))

/-- `CA.STEP` (41_ca_generator.md R124): the chip and its index come from the registers before the step. -/
def execCaStep (s : State) : Host.Outcome State Fault Refusal :=
  if s.selPrn = 0 then .next (raiseFault .noSel 0 s)
  else .next (respond ((s.chipCnt ++ 0#15 ++ chipOf s.g1 s.g2 s.g2Out).setWidth 32) (stepCaGen s))

/-- `CA.RDST u` (41_ca_generator.md R125). -/
def execCaRdst (u : BitVec 1) (s : State) : Host.Outcome State Fault Refusal :=
  .next (respond ((if u = 0 then s.g1 else s.g2).setWidth 32) s)

end Sys2Proof.Machine
end

