-- ==== Sys2Proof/Machine/CodeRom.lean ====
section
/-! DEFINITION. The commands that reach the tables (42_code_rom.md R143 to R145). -/

namespace Sys2Proof.Machine

/-- `ROM.BUILD` (42_code_rom.md R143). -/
def execRomBuild (s : State) : Host.Outcome State Fault Refusal :=
  .next (respond ((startBuild s).romState.bits.setWidth 32) (startBuild s))

/-- `ROM.READ prn, idx` (42_code_rom.md R144), its checks in the order of 60_exceptions.md R181. -/
def execRomRead (prn : Prn) (idx : ChipIdx) (s : State) : Host.Outcome State Fault Refusal :=
  match satOfPrn prn with
  | none => .next (raiseFault .badPrn prn s)
  | some sat =>
    match chipOfIdx idx with
    | none => .next (raiseFault .badIndex 0 s)
    | some i =>
      match s.romState with
      | .failed => .next (raiseFault .romFailed 0 s)
      | .uninit => .next (hold (startBuild s))
      | .building => .next (hold s)
      | .built => .next (respond ((codeChip s (codeAddr sat i)).setWidth 32) s)

/-- `TAP.READ prn` (42_code_rom.md R145): the entry as stored. -/
def execTapRead (prn : Prn) (s : State) : Host.Outcome State Fault Refusal :=
  match satOfPrn prn with
  | none => .next (raiseFault .badPrn prn s)
  | some sat => .next (respond ((tapEntry s sat).setWidth 32) s)

end Sys2Proof.Machine
end

