-- ==== Sys2Proof/Machine/Lfsr.lean ====
section
/-! DEFINITION. The three operations of the `LFSR` primitive (40_lfsr.md R103 to R105), on the standalone instance
that samples its control in this step. -/

namespace Sys2Proof.Machine

/-- `LFSR.HOLD` on an instance: the register stays, and no bit is emitted (40_lfsr.md R103). -/
def LfsrUnit.held (u : LfsrUnit) : LfsrUnit := { u with emitted := none }

/-- `LFSR.STEP` on an instance: output and feedback from the register before the step, then the shift
(40_lfsr.md R104, 70_reset_and_hazards.md R204). -/
def LfsrUnit.stepped (u : LfsrUnit) : LfsrUnit := { u with s := shift u.fbTaps u.s, emitted := some u.out }

/-- `LFSR.INIT` on an instance: all ones, and no bit is emitted (40_lfsr.md R105). -/
def LfsrUnit.seeded (u : LfsrUnit) : LfsrUnit := { u with s := seed, emitted := none }

/-- `LFSR.HOLD` (40_lfsr.md R103). -/
def execLfsrHold (s : State) : Host.Outcome State Fault Refusal := onUnit LfsrUnit.held s

/-- `LFSR.STEP` (40_lfsr.md R104). -/
def execLfsrStep (s : State) : Host.Outcome State Fault Refusal := onUnit LfsrUnit.stepped s

/-- `LFSR.INIT` (40_lfsr.md R105). -/
def execLfsrInit (s : State) : Host.Outcome State Fault Refusal := onUnit LfsrUnit.seeded s

end Sys2Proof.Machine
end

