-- ==== Sys2Proof/Machine/System.lean ====
section
/-! DEFINITION. The housekeeping commands (43_system.md R160, R161). -/

namespace Sys2Proof.Machine

/-- `NOP` (43_system.md R160). -/
def execNop (s : State) : Host.Outcome State Fault Refusal := .next (respond 0 s)

/-- `STATUS` (43_system.md R161). -/
def execStatus (s : State) : Host.Outcome State Fault Refusal := .next (respond (statusWord s) s)

end Sys2Proof.Machine
end

