-- ==== Sys2Proof/Machine/Dispatch.lean ====
section
/-! DEFINITION. One arm for each instruction. -/

namespace Sys2Proof.Machine

def exec (i : Instr) (s : State) : Host.Outcome State Fault Refusal :=
  match i with
  | .nop => Sys2Proof.Machine.execNop s
  | .caSel prn => Sys2Proof.Machine.execCaSel prn s
  | .caStep => Sys2Proof.Machine.execCaStep s
  | .caRdst u => Sys2Proof.Machine.execCaRdst u s
  | .romBuild => Sys2Proof.Machine.execRomBuild s
  | .romRead prn idx => Sys2Proof.Machine.execRomRead prn idx s
  | .tapRead prn => Sys2Proof.Machine.execTapRead prn s
  | .status => Sys2Proof.Machine.execStatus s
  | .lfsrHold => Sys2Proof.Machine.execLfsrHold s
  | .lfsrStep => Sys2Proof.Machine.execLfsrStep s
  | .lfsrInit => Sys2Proof.Machine.execLfsrInit s

end Sys2Proof.Machine
end

