-- ==== Sys2Proof/Machine/Turn.lean ====
section
/-! DEFINITION. What one turn of each agent does (10_state.md R20, 70_reset_and_hazards.md R200), and which turn is
next. Log 1. -/

namespace Sys2Proof.Machine

/-- The host presents its next command where the port is empty; a held command stays (70_reset_and_hazards.md R206). -/
def presentNext (s : State) : State :=
  match s.port, s.hostQueue with
  | none, w :: ws => { s with port := some w, hostQueue := ws, rsp := none }
  | _, _ => s

/-- Run the head command. A word that is no command raises ILLEGAL_CMD (60_exceptions.md R172). -/
def runCommand (w : Word) (s : State) : Host.Outcome State Fault Refusal :=
  match decode (.cmd32 w) with
  | .ok i => Sys2Proof.Machine.exec i s
  | .error _ => .next (raiseFault .illegalCmd 0 s)

/-- The host's turn: one command is accepted and runs, or the held one is tried again from the top
(00_scope.md R6, 42_code_rom.md R144). With no command to present, nothing happens. -/
def hostTurn (s : State) : Host.Outcome State Fault Refusal :=
  match (presentNext s).port with
  | some w => runCommand w (presentNext s)
  | none => .next s

/-- One clock of standalone instance `k` (40_lfsr.md R112): its `rst` acts as `LFSR.INIT` whatever the control is
(70_reset_and_hazards.md R200; log 10); control 11 is refused (40_lfsr.md R106). -/
def lfsrTurn (k : Nat) (rst : Bool) (ctl : Ctl) (s : State) : Host.Outcome State Fault Refusal :=
  if rst then Sys2Proof.Machine.execLfsrInit { s with lfsrAt := k }
  else
    match decode (.lfsrCtl ctl) with
    | .ok i => Sys2Proof.Machine.exec i { s with lfsrAt := k }
    | .error _ => .refused .lfsrInitAndStep

/-- The block's reset (70_reset_and_hazards.md R200, 10_state.md R45): every state element takes its reset value, the
configuration stays, and so do the host's own plans, which lie outside the block (log 16). -/
def resetBlock (s : State) : State :=
  { State.initial s.cfg (s.lfsrs.map fun u => LfsrUnit.fresh u.outTaps u.fbTaps) with
    lfsrAt := s.lfsrAt, hostQueue := s.hostQueue, turns := s.turns }

/-- One turn of one agent. -/
def runTurn (t : Turn) (s : State) : Host.Outcome State Fault Refusal :=
  match t with
  | .host => hostTurn s
  | .builder first more => .next (builderStep first more s)
  | .lfsr k rst ctl => lfsrTurn k rst ctl s
  | .rst => .next (resetBlock s)

/-- The eager transition comes before any other step after reset (42_code_rom.md R148), unless reset is still
asserted (70_reset_and_hazards.md R200). Log 11. -/
def eagerFirst (s : State) : Bool := s.eagerDue && s.turns.head? != some .rst

/-- One step of the machine: the eager transition if it is due, else the next turn; with no turn to come, nothing
moves. -/
def nextMove (s : State) : Host.Outcome State Fault Refusal :=
  if eagerFirst s then .next (eagerStart s)
  else
    match s.turns with
    | [] => .next s
    | t :: ts => runTurn t { s with turns := ts }

/-- The state with the eager transition already taken, if it was due. -/
def pastEager (s : State) : State := if s.eagerDue then eagerStart s else s

/-- The state whose very next step runs these bits: a command at the head of the port and the host's turn, or a
control value on the addressed standalone instance. Log 13. -/
def placeBits (b : Bits) (s : State) : State :=
  match b with
  | .cmd32 w => { pastEager s with port := some w, turns := .host :: s.turns }
  | .lfsrCtl c => { pastEager s with turns := .lfsr s.lfsrAt false c :: s.turns }

end Sys2Proof.Machine
end

