-- ==== Sys2Proof/Machine/Step.lean ====
section
/-! DEFINITION. The step of the machine, and the state in which the very next step runs a given instruction. -/

namespace Sys2Proof.Machine

/-- One step: one transition of one agent (00_scope.md R6, 10_state.md R20). -/
def step (s : State) : Host.Outcome State Fault Refusal := nextMove s

/-- `s` with an opcode-table word placed so that the next step runs it. Log 13. -/
def State.withFetchWord (s : State) (nbits w : Nat) : State :=
  match tableBits nbits w with
  | some b => placeBits b s
  | none => s

end Sys2Proof.Machine
end

