-- ==== Sys2Proof/Machine/Assembler.lean ====
section
/-! DEFINITION. The assembler (30_encoding.md R85, R86): from a line of text to a statement, and from a statement to
the words it stands for. It carries no semantics (92_eei_decisions.md D29). What the rules do not fix of the text is
log 17. -/

namespace Sys2Proof.Machine

/-! ### From statements to bits -/

/-- The bits a statement stands for, its pseudo-instructions expanded (30_encoding.md R86). -/
def asmBits : AsmStmt → List Bits
  | .nop => [encode .nop]
  | .caSel prn => [encode (.caSel (BitVec.ofNat 6 prn))]
  | .caStep => [encode .caStep]
  | .caRdst g2 => [encode (.caRdst (BitVec.ofBool g2))]
  | .romBuild => [encode .romBuild]
  | .romRead prn idx => [encode (.romRead (BitVec.ofNat 6 prn) (BitVec.ofNat 10 idx))]
  | .tapRead prn => [encode (.tapRead (BitVec.ofNat 6 prn))]
  | .status => [encode .status]
  | .word w => [.cmd32 (BitVec.ofNat 32 w)]
  | .lfsrHold => [encode .lfsrHold]
  | .lfsrStep => [encode .lfsrStep]
  | .lfsrInit => [encode .lfsrInit]
  | .caRun prn n => encode (.caSel (BitVec.ofNat 6 prn)) :: List.replicate n (encode .caStep)
  | .caCode prn => encode (.caSel (BitVec.ofNat 6 prn)) :: List.replicate 1023 (encode .caStep)
  | .caRdall => [encode (.caRdst 0), encode (.caRdst 1)]

/-- Assemble one statement; an operand outside its field's width is rejected (30_encoding.md R85). -/
def assemble (a : AsmStmt) : Option (List Bits) := if a.wellFormed then some (asmBits a) else none

/-! ### From text to statements -/

/-- A blank inside a line. -/
def isBlank (c : Char) : Bool := c = ' ' || c = '\t' || c = '\r'

/-- A text without the blanks at its two ends. -/
def trimBlanks (cs : List Char) : List Char :=
  ((cs.dropWhile isBlank).reverse.dropWhile isBlank).reverse

/-- The value of a digit in a base. -/
def digitValue (base : Nat) (c : Char) : Option Nat :=
  let v :=
    if '0' ≤ c ∧ c ≤ '9' then c.toNat - '0'.toNat
    else if 'a' ≤ c ∧ c ≤ 'f' then c.toNat - 'a'.toNat + 10
    else if 'A' ≤ c ∧ c ≤ 'F' then c.toNat - 'A'.toNat + 10
    else base
  if v < base then some v else none

/-- The number that digits stand for, after `acc`. -/
def digitsValue (base : Nat) : Nat → List Char → Option Nat
  | acc, [] => some acc
  | acc, c :: cs =>
    match digitValue base c with
    | some d => digitsValue base (acc * base + d) cs
    | none => none

/-- A number: decimal, or hexadecimal with `0x` (30_encoding.md R85). -/
def parseNumber : List Char → Option Nat
  | [] => none
  | ['0', 'x'] => none
  | '0' :: 'x' :: ds => digitsValue 16 0 ds
  | ds => digitsValue 10 0 ds

/-- The operands of a line: separated by commas (30_encoding.md R85). -/
def parseOperands (cs : List Char) : List (List Char) :=
  if trimBlanks cs = [] then [] else (cs.splitOn ',').map trimBlanks

/-- A statement with one number as its operand. -/
def withNumber (cs : List Char) (f : Nat → AsmStmt) : Option AsmStmt := (parseNumber cs).map f

/-- A statement with two numbers as its operands. -/
def withNumbers (cs ds : List Char) (f : Nat → Nat → AsmStmt) : Option AsmStmt :=
  match parseNumber cs, parseNumber ds with
  | some m, some n => some (f m n)
  | _, _ => none

/-- The statement of a mnemonic, in lower case, and its operands (30_encoding.md R85, R86). -/
def parseStmt (mnemonic : String) (ops : List (List Char)) : Option AsmStmt :=
  match mnemonic, ops with
  | "nop", [] => some .nop
  | "ca.sel", [p] => withNumber p .caSel
  | "ca.step", [] => some .caStep
  | "ca.rdst", [['g', '1']] => some (.caRdst false)
  | "ca.rdst", [['g', '2']] => some (.caRdst true)
  | "rom.build", [] => some .romBuild
  | "rom.read", [p, i] => withNumbers p i .romRead
  | "tap.read", [p] => withNumber p .tapRead
  | "status", [] => some .status
  | ".word", [w] => withNumber w .word
  | "lfsr.hold", [] => some .lfsrHold
  | "lfsr.step", [] => some .lfsrStep
  | "lfsr.init", [] => some .lfsrInit
  | "ca.run", [p, n] => withNumbers p n .caRun
  | "ca.code", [p] => withNumber p .caCode
  | "ca.rdall", [] => some .caRdall
  | _, _ => none

/-- One line (30_encoding.md R85): none where it is no statement, `some []` where it is blank or only a comment. -/
def parseLine (line : List Char) : Option (List AsmStmt) :=
  let code := trimBlanks (line.takeWhile (· ≠ '#'))
  if code = [] then some []
  else
    (parseStmt (String.ofList (code.takeWhile fun c => !isBlank c))
      (parseOperands (code.dropWhile fun c => !isBlank c))).map fun a => [a]

/-- Put one line's statements before those of the lines after it, if both are some. -/
def joinLines {α : Type} : Option (List α) → Option (List α) → Option (List α)
  | some xs, some ys => some (xs ++ ys)
  | _, _ => none

/-- A program's text, one command a line, as the bits it stands for (30_encoding.md R85). -/
def assembleText (text : List Char) : Option (List Bits) :=
  (text.splitOn '\n').foldr
    (fun line rest =>
      match parseLine line with
      | some stmts => stmts.foldr (fun a more => joinLines (assemble a) more) rest
      | none => none)
    (some [])

end Sys2Proof.Machine
end

