-- ==== Sys2Proof/Machine/Elaborate.lean ====
section
/-! DEFINITION. Building the block from a configuration: a configuration the model gives no meaning to is refused and
has no run (60_exceptions.md R192). -/

namespace Sys2Proof.Machine

/-- The reset state of a configuration, or the refusal of it (60_exceptions.md R192). -/
def State.build (c : RawConfig) : Host.Outcome State Fault Refusal :=
  if h : c.tapTable.length = 32 then
    if c.lfsrs.all fun m => tapMaskWellFormed m.1 && tapMaskWellFormed m.2 then
      .next (State.initial { tapTable := ⟨c.tapTable.toArray, by simp [h]⟩, eagerBuild := c.eagerBuild }
        (c.lfsrs.map fun m => LfsrUnit.fresh m.1 m.2))
    else .refused .emptyTapSet
  else .refused .tapTableCount

end Sys2Proof.Machine
end

