-- ==== Sys2Proof/Safety.lean ====
section
/-! DEFINITION. The terms claims are stated in: the C/A codes as a function of the tap table (41_ca_generator.md
R127), the invariants of 10_state.md R47, and what makes a run safe (60_exceptions.md R170). -/

namespace Sys2Proof.Safety

open Sys2Proof.Machine

/-- Chip `i` of a satellite, from the tap table alone: the XOR of the outputs of `G1` and `G2` after `i` steps from all
ones (41_ca_generator.md R127). -/
def caChip (cfg : Config) (sat : Fin 32) (i : Nat) : Chip :=
  parity (shiftN g1FbTaps i seed) g1OutTaps ^^^ parity (shiftN g2FbTaps i seed) (entryMask cfg.tapTable[sat])

/-- The chip whose bit address in `CODE` is `a` (20_memory.md R52). -/
def caChipAt (cfg : Config) (a : Nat) : Chip := caChip cfg (Fin.ofNat 32 (a / 1023)) (a % 1023)

/-- The first `n` cells of the complete code table. -/
def tablePrefix (cfg : Config) (n : Nat) : CodeMemory := (List.range n).map fun a => (a, caChipAt cfg a)

/-- The complete code table: all 32736 cells (42_code_rom.md R146). -/
def fullTable (cfg : Config) : CodeMemory := tablePrefix cfg 32736

/-- Every entry of the table is well formed (42_code_rom.md R140). -/
def TableWellFormed (cfg : Config) : Prop := ∀ sat : Fin 32, checkEntry cfg.tapTable[sat] = none

/-- A run without a fault ends with `ERR = 0` (60_exceptions.md R170). -/
def FaultFree (s : State) : Prop := s.err = false

/-- The ranges of the registers (10_state.md R47), and `SEL_PRN = 0` exactly when `G2_OUT = 0`. -/
def RegistersInRange (s : State) : Prop :=
  s.chipCnt.toNat ≤ 1022 ∧ s.selPrn.toNat ≤ 32 ∧ (s.selPrn = 0 ↔ s.g2Out = 0)

/-- The error latch: while `ERR = 0` it is all zero, and else it holds a fault code of 1..8 (10_state.md R31 to R33,
60_exceptions.md R171, R173). -/
def LatchConsistent (s : State) : Prop :=
  (s.err = false → s.errCode = 0 ∧ s.errPrn = 0) ∧
  (s.err = true → 1 ≤ s.errCode.toNat ∧ s.errCode.toNat ≤ 8)

/-- The selection: `G2_OUT` is the mask of the selected satellite's entry, which is well formed
(41_ca_generator.md R121, R123). -/
def SelectionConsistent (s : State) : Prop :=
  s.selPrn ≠ 0 → ∃ sat : Fin 32,
    s.selPrn.toNat = sat.val + 1 ∧ checkEntry s.cfg.tapTable[sat] = none ∧ s.g2Out = entryMask s.cfg.tapTable[sat]

/-- `G1` and `G2` have taken the same number of steps from all ones, which `CHIP_CNT` counts modulo 1023
(41_ca_generator.md R126, R128). -/
def Lockstep (s : State) : Prop :=
  ∃ n : Nat, s.g1 = shiftN g1FbTaps n seed ∧ s.g2 = shiftN g2FbTaps n seed ∧ s.chipCnt.toNat = n % 1023

/-- What the builder has done so far (42_code_rom.md R141): nothing is listed before the chips are computed, the
cells listed are a prefix of the code table, and in BUILT they are all of it (R146). -/
def BuildConsistent (s : State) : Prop :=
  match s.romState with
  | .uninit => s.code = []
  | .failed => s.code = [] ∧ ¬ TableWellFormed s.cfg
  | .built => TableWellFormed s.cfg ∧ s.code = fullTable s.cfg
  | .building =>
    match s.cursor with
    | .check sat => s.code = [] ∧ ∀ k : Fin 32, k.val < sat.val → checkEntry s.cfg.tapTable[k] = none
    | .construct sat => TableWellFormed s.cfg ∧ s.code = tablePrefix s.cfg (sat.val * 1023)
    | .chip sat i =>
      TableWellFormed s.cfg ∧ s.code = tablePrefix s.cfg (sat.val * 1023 + i.val) ∧
      s.b1 = shiftN g1FbTaps i.val seed ∧ s.b2 = shiftN g2FbTaps i.val seed ∧
      s.b2Out = entryMask s.cfg.tapTable[sat]
    | .publish => TableWellFormed s.cfg ∧ s.code = fullTable s.cfg

/-- A command stands in the port only while it is a held `ROM.READ` with legal operands (70_reset_and_hazards.md
R205), and then no response is pending. -/
def PortConsistent (s : State) : Prop :=
  ∀ w, s.port = some w →
    s.rsp = none ∧ s.romState ≠ .uninit ∧
    ∃ prn idx, decode (.cmd32 w) = .ok (.romRead prn idx) ∧ Instr.legalOperands (.romRead prn idx) = true

/-- The eager start is still to come only right after a reset, with `EAGER_BUILD`: nothing has happened since
(42_code_rom.md R142, R148). -/
def EagerConsistent (s : State) : Prop :=
  s.eagerDue = true → s.cfg.eagerBuild = true ∧ s.romState = .uninit ∧ s.port = none

/-- All of it: what holds at reset and after every step. -/
def Consistent (s : State) : Prop :=
  RegistersInRange s ∧ LatchConsistent s ∧ SelectionConsistent s ∧ Lockstep s ∧ BuildConsistent s ∧
  PortConsistent s ∧ EagerConsistent s

/-! ### Terms of the claims -/

/-- The opcode map as 30_encoding.md R77 prints it: mnemonic, match, mask. -/
def opcodeMap : List (String × Word × Word) :=
  [("NOP",       0x00000000#32, 0xFFFFFFFF#32),
   ("CA.SEL",    0x10000000#32, 0xFFC0FFFF#32),
   ("CA.STEP",   0x20000000#32, 0xFFFFFFFF#32),
   ("CA.RDST",   0x30000000#32, 0xFFFFFFFE#32),
   ("ROM.BUILD", 0x40000000#32, 0xFFFFFFFF#32),
   ("ROM.READ",  0x50000000#32, 0xFFC0FC00#32),
   ("TAP.READ",  0x60000000#32, 0xFFC0FFFF#32),
   ("STATUS",    0x70000000#32, 0xFFFFFFFF#32)]

/-- What a fault leaves (60_exceptions.md R170, R182): the error response, the port free, the latch written if it was
clear, and everything else as it was. -/
def afterFault (code : BitVec 4) (prn : BitVec 6) (s : State) : State :=
  { s with
    port := none
    rsp := some ⟨true, code.setWidth 32⟩
    err := true
    errCode := if s.err then s.errCode else code
    errPrn := if s.err then s.errPrn else prn }

/-- The outcome of executing instructions one after the other, stopping at the first that answers no next state. -/
def execAll : List Instr → State → Host.Outcome State Fault Refusal
  | [], s => .next s
  | i :: is, s =>
    match exec i s with
    | .next t => execAll is t
    | .fault r => .fault r
    | .refused r => .refused r

/-- The next turn is a reset of the block. -/
def ResetNext (s : State) : Prop := s.turns.head? = some .rst

/-- The next turn is the builder's. -/
def BuilderNext (s : State) : Prop := ∃ first more, s.turns.head? = some (.builder first more)

/-! ### Fairness (70_reset_and_hazards.md R209) -/

/-- The turns of a run without end. It is no part of State: there, `turns` holds the ones that are laid down. -/
abbrev Schedule := Nat → Turn

/-- A turn of the builder. -/
def isBuilderTurn : Turn → Bool
  | .host => false
  | .builder _ _ => true
  | .lfsr _ _ _ => false
  | .rst => false

/-- How many of the first `n` turns are the builder's. -/
def builderTurns (sch : Schedule) (n : Nat) : Nat := ((List.range n).filter fun k => isBuilderTurn (sch k)).length

/-- The states of a run in which every step is given the schedule's next turn and has a next state. -/
def Follows (sch : Schedule) (run : Nat → State) : Prop :=
  ∀ n, step { run n with turns := [sch n] } = .next (run (n + 1))

/-- The fairness that R209 assumes: the builder is scheduled infinitely often. Log 7. -/
def BuilderFair (sch : Schedule) : Prop := ∀ n, ∃ m, n ≤ m ∧ isBuilderTurn (sch m) = true

/-- The response of a `CA.STEP` that emits chip `v` with index `i` (30_encoding.md R82). -/
def chipResponse (i : BitVec 10) (v : Chip) : Option Response := some ⟨false, (i ++ 0#15 ++ v).setWidth 32⟩

end Sys2Proof.Safety
end

