-- ==== Sys2Proof/Certificates/Slice0/Obligations.lean ====
section
/-! DEFINITION. The statements about the model, for the provers. Each formalises rules of spec/ named in its docstring. -/

open Sys2Proof Sys2Proof.Machine Sys2Proof.Safety

/-! ### Encoding -/

/-- Decode and encode agree: every instruction, with every operand value its encoding admits, is read back from its
bits (30_encoding.md R77, R80, R83). -/
def Obligations.DecodeEncodeRoundTrip : Prop :=
  ∀ i : Instr, decode (encode i) = .ok i

/-- Every word and every control value has one meaning: bits that decode to an instruction are that instruction's
encoding, so no reserved bit is dropped (30_encoding.md R76, R80). -/
def Obligations.DecodedBitsReencode : Prop :=
  ∀ (b : Bits) (i : Instr), decode b = .ok i → encode i = b

/-- R77: a word is a command exactly when it has the command's match under the command's mask; R78: with `w[31] = 1` it
is none. -/
def Obligations.CommandIsMatchUnderMask : Prop :=
  (∀ w : Word, ∀ r ∈ opcodeMap,
    (w &&& r.2.2 = r.2.1 ↔ ∃ i, decode (.cmd32 w) = .ok i ∧ i.mnemonic = r.1)) ∧
  (∀ w : Word, w.getLsbD 31 = true → ∀ i, decode (.cmd32 w) ≠ .ok i)

/-- Words and control values written out bit by bit from the encodings of 30_encoding.md R71, R77, R83. -/
def Obligations.WrittenOutWordsDecode : Prop :=
  decode (.cmd32 0b0000_000000_000000_000000_0000000000) = .ok .nop ∧
  decode (.cmd32 0b0001_000000_100000_000000_0000000000) = .ok (.caSel 32) ∧
  decode (.cmd32 0b0010_000000_000000_000000_0000000000) = .ok .caStep ∧
  decode (.cmd32 0b0011_000000_000000_000000_0000000001) = .ok (.caRdst 1) ∧
  decode (.cmd32 0b0100_000000_000000_000000_0000000000) = .ok .romBuild ∧
  decode (.cmd32 0b0101_000000_100000_000000_1111111110) = .ok (.romRead 32 1022) ∧
  decode (.cmd32 0b0110_000000_000101_000000_0000000000) = .ok (.tapRead 5) ∧
  decode (.cmd32 0b0111_000000_000000_000000_0000000000) = .ok .status ∧
  decode (.lfsrCtl 0b00) = .ok .lfsrHold ∧ decode (.lfsrCtl 0b01) = .ok .lfsrStep ∧
  decode (.lfsrCtl 0b10) = .ok .lfsrInit ∧ decode (.lfsrCtl 0b11) = .error .initAndStep

/-- R85, R86: the words of the statements whose words the rules give, the rejected widths, and the three
pseudo-instructions. -/
def Obligations.AssemblerWords : Prop :=
  assemble .nop = some [.cmd32 0x00000000] ∧
  (∀ p ≤ 63, assemble (.caSel p) = some [.cmd32 (0x10000000#32 ||| BitVec.ofNat 32 p <<< 16)]) ∧
  assemble .caStep = some [.cmd32 0x20000000] ∧
  assemble (.caRdst false) = some [.cmd32 0x30000000] ∧ assemble (.caRdst true) = some [.cmd32 0x30000001] ∧
  assemble .romBuild = some [.cmd32 0x40000000] ∧
  (∀ p ≤ 63, ∀ i ≤ 1023, assemble (.romRead p i) =
    some [.cmd32 (0x50000000#32 ||| BitVec.ofNat 32 p <<< 16 ||| BitVec.ofNat 32 i)]) ∧
  (∀ p ≤ 63, assemble (.tapRead p) = some [.cmd32 (0x60000000#32 ||| BitVec.ofNat 32 p <<< 16)]) ∧
  assemble .status = some [.cmd32 0x70000000] ∧
  (∀ w < 2 ^ 32, assemble (.word w) = some [.cmd32 (BitVec.ofNat 32 w)]) ∧
  (∀ p, 63 < p → assemble (.caSel p) = none ∧ assemble (.tapRead p) = none) ∧
  (∀ p i, 63 < p ∨ 1023 < i → assemble (.romRead p i) = none) ∧
  (∀ p ≤ 63, ∀ n, assemble (.caRun p n) =
    some (.cmd32 (0x10000000#32 ||| BitVec.ofNat 32 p <<< 16) :: List.replicate n (.cmd32 0x20000000))) ∧
  (∀ p ≤ 63, assemble (.caCode p) = assemble (.caRun p 1023)) ∧
  assemble .caRdall = some [.cmd32 0x30000000, .cmd32 0x30000001]

/-! ### Steps of the agents -/

/-- The host's turn runs the decoded command: the next one of its queue where the port is empty, the held one where it
is not (00_scope.md R6, 10_state.md R35, 42_code_rom.md R144). -/
def Obligations.HostStepRunsDecodedCommand : Prop :=
  (∀ (s : State) (w : Word) (ws : List Word) (ts : List Turn) (i : Instr),
    s.eagerDue = false → s.turns = .host :: ts → s.port = none → s.hostQueue = w :: ws →
    decode (.cmd32 w) = .ok i →
    step s = exec i { s with port := some w, hostQueue := ws, rsp := none, turns := ts }) ∧
  (∀ (s : State) (w : Word) (ts : List Turn) (i : Instr),
    s.eagerDue = false → s.turns = .host :: ts → s.port = some w → decode (.cmd32 w) = .ok i →
    step s = exec i { s with turns := ts })

/-- One clock of a standalone instance runs the decoded control on that instance; its `rst` acts as `LFSR.INIT`
(40_lfsr.md R112, 70_reset_and_hazards.md R200; that it does so whatever the control is, is the model's, log 10). -/
def Obligations.ControlStepRunsDecodedControl : Prop :=
  (∀ (s : State) (k : Nat) (c : Ctl) (ts : List Turn) (i : Instr),
    s.eagerDue = false → s.turns = .lfsr k false c :: ts → decode (.lfsrCtl c) = .ok i →
    step s = exec i { s with lfsrAt := k, turns := ts }) ∧
  (∀ (s : State) (k : Nat) (c : Ctl) (ts : List Turn),
    s.eagerDue = false → s.turns = .lfsr k true c :: ts →
    step s = exec .lfsrInit { s with lfsrAt := k, turns := ts })

/-- R172: a word that has no command's match under its mask, when the host presents it, raises ILLEGAL_CMD with
`ERR_PRN` 0, and no part of it is acted on. -/
def Obligations.IllegalWordRaisesIllegalCmd : Prop :=
  ∀ (s : State) (w : Word) (ws : List Word) (ts : List Turn),
    s.eagerDue = false → s.turns = .host :: ts → s.port = none → s.hostQueue = w :: ws →
    (w.getLsbD 31 = true ∨ ∀ r ∈ opcodeMap, w &&& r.2.2 ≠ r.2.1) →
    step s = .next (afterFault 1 0 { s with hostQueue := ws, turns := ts })

/-- R192, R100, R106: a table of another length than 32, an empty tap set and control 11 are refused, and nothing else of
a configuration is: with 32 entries and no empty set the block is built, its instances at all ones (R45). The model's own
reading, log 14 (DEDUCED): a configuration with both faults is refused for its table; an instance with an empty set in a
state that was never built refuses every control; control 11 is refused before the instance is looked at. That a fresh
instance has emitted no bit is the model's, log 9 (DESIGN CHOICE). -/
def Obligations.RefusedConfigurationsAndControl : Prop :=
  (∀ c : RawConfig, c.tapTable.length ≠ 32 → State.build c = .refused .tapTableCount) ∧
  (∀ c : RawConfig, c.tapTable.length = 32 → (∃ m ∈ c.lfsrs, m.1 = 0 ∨ m.2 = 0) →
    State.build c = .refused .emptyTapSet) ∧
  (∀ c : RawConfig, c.tapTable.length = 32 → (∀ m ∈ c.lfsrs, m.1 ≠ 0 ∧ m.2 ≠ 0) →
    ∃ s, State.build c = .next s ∧ s.cfg.tapTable.toList = c.tapTable ∧ s.cfg.eagerBuild = c.eagerBuild ∧
      s.lfsrs = c.lfsrs.map fun m => ⟨m.1, m.2, 0x3FF, none⟩) ∧
  (∀ (s : State) (u : LfsrUnit), s.lfsrs[s.lfsrAt]? = some u → (u.outTaps = 0 ∨ u.fbTaps = 0) →
    ∀ i ∈ [Instr.lfsrHold, Instr.lfsrStep, Instr.lfsrInit], exec i s = .refused .emptyTapSet) ∧
  (∀ (s : State) (k : Nat) (ts : List Turn), s.eagerDue = false → s.turns = .lfsr k false 0b11 :: ts →
    step s = .refused .lfsrInitAndStep)

/-- R170: "The block does not stop": every step that is not a clock of a standalone instance has a next state. -/
def Obligations.BlockDoesNotStop : Prop :=
  ∀ s : State, (∀ k rst c ts, s.turns ≠ .lfsr k rst c :: ts) → ∃ t, step s = .next t

/-! ### The LFSR primitive -/

/-- R103: `LFSR.HOLD` completes, keeps the register, emits nothing, and changes nothing else; `out`, `fb` and `state` stay
as R102 gives them. (That no bit is emitted stands in the model's own field `emitted`, log 9.) -/
def Obligations.LfsrHoldKeepsTheRegister : Prop :=
  ∀ (s : State) (u : LfsrUnit), s.lfsrs[s.lfsrAt]? = some u → u.outTaps ≠ 0 → u.fbTaps ≠ 0 →
    ∃ v : LfsrUnit, v = { u with emitted := none } ∧
      exec .lfsrHold s = .next { s with lfsrs := s.lfsrs.set s.lfsrAt v } ∧
      v.out = parity u.s u.outTaps ∧ v.fb = parity u.s u.fbTaps ∧ v.state = u.s

/-- R104, R204, with the ports of R102 and R112: `LFSR.STEP` completes; the bit emitted is the port `out` and the new stage
1 is the port `fb`, both the parities of the register BEFORE the step; every stage moves one up; the port `state` is the
register; nothing else changes. (The emitted bit stands in the model's own field `emitted`, log 9.) -/
def Obligations.LfsrStepEmitsAndShifts : Prop :=
  ∀ (s : State) (u : LfsrUnit), s.lfsrs[s.lfsrAt]? = some u → u.outTaps ≠ 0 → u.fbTaps ≠ 0 →
    ∃ v : LfsrUnit,
      exec .lfsrStep s = .next { s with lfsrs := s.lfsrs.set s.lfsrAt v } ∧
      v.outTaps = u.outTaps ∧ v.fbTaps = u.fbTaps ∧
      v.emitted = some u.out ∧ u.out = parity u.s u.outTaps ∧ u.fb = parity u.s u.fbTaps ∧
      (∀ k, 2 ≤ k → k ≤ 10 → stage v.s k = stage u.s (k - 1)) ∧ BitVec.ofBool (stage v.s 1) = u.fb ∧
      v.s = (u.s <<< 1) ||| u.fb.setWidth 10 ∧ u.state = u.s ∧ v.state = v.s

/-- R105: `LFSR.INIT` completes, makes every stage 1, emits nothing, and changes nothing else. -/
def Obligations.LfsrInitSeedsTheRegister : Prop :=
  ∀ (s : State) (u : LfsrUnit), s.lfsrs[s.lfsrAt]? = some u → u.outTaps ≠ 0 → u.fbTaps ≠ 0 →
    exec .lfsrInit s = .next { s with lfsrs := s.lfsrs.set s.lfsrAt { u with s := 0x3FF, emitted := none } }

/-- R101: parity is the number of selected stages that hold 1, modulo 2; in mask form, the number of ones of
`s & mask` modulo 2. -/
def Obligations.ParityIsOddCount : Prop :=
  ∀ (s : Stages) (t : TapMask),
    (parity s t).toNat = ((List.range' 1 10).filter fun k => stage t k && stage s k).length % 2 ∧
    (parity s t).toNat = ((List.range 10).filter fun b => (s &&& t).getLsbD b).length % 2

/-- 40_lfsr.md section 3: driven from all ones by any controls of HOLD and STEP, an instance holds the register of as
many shifts as there were STEPs, and a further STEP emits the output parity of exactly that register. -/
def Obligations.FreshInstanceSequence : Prop :=
  ∀ (s : State) (k : Nat) (u : LfsrUnit) (cs : List Ctl) (ts : List Turn),
    s.eagerDue = false → s.lfsrs[k]? = some u → u.outTaps ≠ 0 → u.fbTaps ≠ 0 → u.s = 0x3FF →
    (∀ c ∈ cs, c = 0b00 ∨ c = 0b01) →
    s.turns = (cs.map fun c => Turn.lfsr k false c) ++ Turn.lfsr k false 0b01 :: ts →
    ∃ t v, core.run (cs.length + 1) s = .next t ∧ t.turns = ts ∧ t.lfsrs[k]? = some v ∧
      v.outTaps = u.outTaps ∧ v.fbTaps = u.fbTaps ∧
      v.emitted = some (parity (shiftN u.fbTaps (cs.count 0b01) 0x3FF) u.outTaps) ∧
      v.s = shiftN u.fbTaps (cs.count 0b01 + 1) 0x3FF

/-- R110: two fresh instances with the same parameters, driven by the same controls, hold the same register and have
emitted the same bit. -/
def Obligations.EqualInstancesAgree : Prop :=
  ∀ (s : State) (k l : Nat) (out fb : TapMask) (cs : List Ctl) (ts : List Turn),
    s.eagerDue = false → k ≠ l →
    s.lfsrs[k]? = some (LfsrUnit.fresh out fb) → s.lfsrs[l]? = some (LfsrUnit.fresh out fb) →
    out ≠ 0 → fb ≠ 0 → (∀ c ∈ cs, c ≠ 0b11) →
    s.turns = (cs.flatMap fun c => [Turn.lfsr k false c, Turn.lfsr l false c]) ++ ts →
    ∃ t v, core.run (2 * cs.length) s = .next t ∧ t.lfsrs[k]? = some v ∧ t.lfsrs[l]? = some v

/-- R109: the G1 feedback and the G2 feedback first return to all ones at step 1023. -/
def Obligations.PeriodOf1023 : Prop :=
  ∀ fb ∈ [tapMask [3, 10], tapMask [2, 3, 6, 8, 9, 10]],
    shiftN fb 1023 0x3FF = 0x3FF ∧ ∀ n, 0 < n → n < 1023 → shiftN fb n 0x3FF ≠ 0x3FF

/-- The corner cases of R104: with 10 in the feedback the step is one to one and the all-zero register stays; without
10 it is not one to one. -/
def Obligations.StepIsOneToOneWithTap10 : Prop :=
  (∀ fb : TapMask, stage fb 10 = true → Function.Injective (shift fb)) ∧
  (∀ fb : TapMask, stage fb 10 = false → ¬ Function.Injective (shift fb)) ∧
  (∀ fb : TapMask, shift fb 0 = 0)

/-! ### CAGEN -/

/-- R123, R174, R178, R179, R180 for `CA.SEL`: in every case it completes, with the effect or the fault R123 gives, and
nothing else changes. -/
def Obligations.CaSelCommand : Prop :=
  ∀ (s : State) (prn : Prn),
    (¬ (1 ≤ prn.toNat ∧ prn.toNat ≤ 32) → exec (.caSel prn) s = .next (afterFault 2 prn s)) ∧
    (∀ sat : Fin 32, prn.toNat = sat.val + 1 →
      ∀ e : TapEntry, e = s.cfg.tapTable[sat] →
      ∀ A B : Nat, A = (e.extractLsb' 4 4).toNat → B = (e.extractLsb' 0 4).toNat →
        (¬ (1 ≤ A ∧ A ≤ 10) → exec (.caSel prn) s = .next (afterFault 6 prn s)) ∧
        (1 ≤ A → A ≤ 10 → ¬ (1 ≤ B ∧ B ≤ 10) → exec (.caSel prn) s = .next (afterFault 7 prn s)) ∧
        (1 ≤ A → A ≤ 10 → A = B → exec (.caSel prn) s = .next (afterFault 8 prn s)) ∧
        (1 ≤ A → A ≤ 10 → 1 ≤ B → B ≤ 10 → A ≠ B →
          exec (.caSel prn) s = .next { s with
            g1 := 0x3FF, g2 := 0x3FF, g2Out := (1#10 <<< (A - 1)) ||| (1#10 <<< (B - 1)),
            selPrn := prn, chipCnt := 0, port := none, rsp := some ⟨false, 0⟩ }))

/-- R124, R122, R176: `CA.STEP` completes; with a satellite selected it answers the chip and its index, both from the
registers before the step, shifts `G1` and `G2` and counts modulo 1023; with none it raises NO_SEL; nothing else
changes. -/
def Obligations.CaStepCommand : Prop :=
  ∀ s : State,
    (s.selPrn = 0 → exec .caStep s = .next (afterFault 4 0 s)) ∧
    (s.selPrn ≠ 0 → exec .caStep s = .next { s with
      g1 := (s.g1 <<< 1) ||| (parity s.g1 (tapMask [3, 10])).setWidth 10
      g2 := (s.g2 <<< 1) ||| (parity s.g2 (tapMask [2, 3, 6, 8, 9, 10])).setWidth 10
      chipCnt := BitVec.ofNat 10 ((s.chipCnt.toNat + 1) % 1023)
      port := none
      rsp := chipResponse s.chipCnt (parity s.g1 (tapMask [10]) ^^^ parity s.g2 s.g2Out) })

/-- R125: `CA.RDST` completes in every state, answers the register `U` selects, and changes nothing else. -/
def Obligations.CaRdstCommand : Prop :=
  ∀ s : State,
    exec (.caRdst 0) s = .next { s with port := none, rsp := some ⟨false, s.g1.setWidth 32⟩ } ∧
    exec (.caRdst 1) s = .next { s with port := none, rsp := some ⟨false, s.g2.setWidth 32⟩ }

/-- R126: `G1` and `G2` move only together: a step leaves both, shifts both, or seeds both. -/
def Obligations.GeneratorsMoveTogether : Prop :=
  ∀ s t : State, step s = .next t →
    (t.g1 = s.g1 ∧ t.g2 = s.g2) ∨
    (t.g1 = shift g1FbTaps s.g1 ∧ t.g2 = shift g2FbTaps s.g2) ∨
    (t.g1 = 0x3FF ∧ t.g2 = 0x3FF)

/-- R127, R128: after a `CA.SEL p` that succeeds and `n` `CA.STEP`s, the next `CA.STEP` emits chip `n mod 1023` of
satellite `p`'s code, with that index. -/
def Obligations.CaStreamIsTheCode : Prop :=
  ∀ (s : State) (prn : Prn) (sat : Fin 32) (n : Nat),
    prn.toNat = sat.val + 1 → checkEntry s.cfg.tapTable[sat] = none →
    ∃ t, execAll (.caSel prn :: List.replicate (n + 1) .caStep) s = .next t ∧
      t.rsp = chipResponse (BitVec.ofNat 10 (n % 1023)) (caChip s.cfg sat (n % 1023))

/-- R128: 1023 `CA.STEP`s after a `CA.SEL` that succeeds, every register is as that `CA.SEL` left it. -/
def Obligations.CaGenPeriod : Prop :=
  ∀ (s : State) (prn : Prn) (sat : Fin 32),
    prn.toNat = sat.val + 1 → checkEntry s.cfg.tapTable[sat] = none →
    ∃ t u, exec (.caSel prn) s = .next t ∧ execAll (List.replicate 1023 .caStep) t = .next u ∧
      u = { t with rsp := u.rsp } ∧ u.g1 = 0x3FF ∧ u.g2 = 0x3FF ∧ u.chipCnt = 0

/-! ### PRNROM -/

/-- R143: `ROM.BUILD` completes; in UNINIT it starts the build, in any other state it changes nothing; it answers
`ROM_STATE` after the command. (The builder's private cursor may move with the start; nothing is said of where.) -/
def Obligations.RomBuildCommand : Prop :=
  ∀ s : State,
    (s.romState = .uninit → ∃ c : Cursor, exec .romBuild s = .next { s with
      romState := .building, cursor := c, port := none, rsp := some ⟨false, 1⟩ }) ∧
    (s.romState = .building → exec .romBuild s = .next { s with port := none, rsp := some ⟨false, 1⟩ }) ∧
    (s.romState = .built → exec .romBuild s = .next { s with port := none, rsp := some ⟨false, 2⟩ }) ∧
    (s.romState = .failed → exec .romBuild s = .next { s with port := none, rsp := some ⟨false, 3⟩ })

/-- R144 (with the checks in the order of R181): `ROM.READ` in each of its cases: BAD_PRN before BAD_INDEX before the
state; ROM_FAILED; the lazy trigger and the hold; in BUILT the chip at `(p - 1) * 1023 + idx`, and nothing else changes;
and a held `ROM.READ` is tried again from the top in the host's next turn. (The builder's private cursor may move with
the trigger; nothing is said of where.) -/
def Obligations.RomReadCommand : Prop :=
  ∀ (s : State) (prn : Prn) (idx : ChipIdx),
    (¬ (1 ≤ prn.toNat ∧ prn.toNat ≤ 32) → exec (.romRead prn idx) s = .next (afterFault 2 prn s)) ∧
    (1 ≤ prn.toNat → prn.toNat ≤ 32 → 1022 < idx.toNat → exec (.romRead prn idx) s = .next (afterFault 3 0 s)) ∧
    (1 ≤ prn.toNat → prn.toNat ≤ 32 → idx.toNat ≤ 1022 →
      (s.romState = .failed → exec (.romRead prn idx) s = .next (afterFault 5 0 s)) ∧
      (s.romState = .uninit → ∃ c : Cursor, exec (.romRead prn idx) s =
        .next { s with romState := .building, cursor := c, rsp := none }) ∧
      (s.romState = .building → exec (.romRead prn idx) s = .next { s with rsp := none }) ∧
      (s.romState = .built → ∃ v : Chip,
        exec (.romRead prn idx) s = .next { s with port := none, rsp := some ⟨false, v.setWidth 32⟩ } ∧
        ∀ v', codeRead s.code ((prn.toNat - 1) * 1023 + idx.toNat) = some v' → v = v')) ∧
    (∀ (w : Word) (ts : List Turn), s.eagerDue = false → s.turns = .host :: ts → s.port = some w →
      decode (.cmd32 w) = .ok (.romRead prn idx) → step s = exec (.romRead prn idx) { s with turns := ts })

/-- R145, R174: `TAP.READ` completes: BAD_PRN, or the entry as stored, in every `ROM_STATE`; nothing else changes. -/
def Obligations.TapReadCommand : Prop :=
  ∀ (s : State) (prn : Prn),
    (¬ (1 ≤ prn.toNat ∧ prn.toNat ≤ 32) → exec (.tapRead prn) s = .next (afterFault 2 prn s)) ∧
    (∀ sat : Fin 32, prn.toNat = sat.val + 1 → exec (.tapRead prn) s =
      .next { s with port := none, rsp := some ⟨false, s.cfg.tapTable[sat].setWidth 32⟩ })

/-- R140: the check of an entry tests `A`, then `B`, then their distinctness. -/
def Obligations.EntryCheckOrder : Prop :=
  ∀ e : TapEntry, ∀ A B : Nat, A = (e.extractLsb' 4 4).toNat → B = (e.extractLsb' 0 4).toNat →
    checkEntry e =
      if A = 0 ∨ 10 < A then some .tapRangeA
      else if B = 0 ∨ 10 < B then some .tapRangeB
      else if A = B then some .tapDup else none

/-- R183, R182: when every entry before satellite `sat + 1` is well formed and its own is malformed, the build, from its
start, fails at that satellite, latches its code and the satellite (if nothing is latched), and changes nothing else but
the cursor. That a build starts at the cursor `check 0` and comes to satellite `sat + 1` with the builder's move number
`sat + 1` is the model's granularity, log 6 (DESIGN CHOICE): R141 leaves the split into steps open. -/
def Obligations.FailedBuildLatchesLowest : Prop :=
  ∀ (s : State) (sat : Fin 32) (c : FaultCode) (moves : List Nat),
    s.romState = .building → s.cursor = .check 0 →
    (∀ k : Fin 32, k.val < sat.val → checkEntry s.cfg.tapTable[k] = none) →
    checkEntry s.cfg.tapTable[sat] = some c →
    moves.length = sat.val + 1 →
    builderMoves moves s = { s with
      romState := .failed, cursor := (builderMoves moves s).cursor, err := true
      errCode := if s.err then s.errCode else c.bits
      errPrn := if s.err then s.errPrn else BitVec.ofNat 6 (sat.val + 1) }

/-- R141, R209: every build ends. 32801 moves of the builder end it, whatever number of chip steps each takes; so do 32801
of the builder's own steps in any run without a reset; and so it ends in every run without a reset in which the builder is
scheduled infinitely often, and from then on every turn of the host completes the `ROM.READ` that was held. The bound on
the moves is the model's granularity, log 6 (DESIGN CHOICE; R141 leaves the split open); fairness is the premise
`BuilderFair`, log 7. -/
def Obligations.EveryBuildEnds : Prop :=
  (∀ (s : State) (moves : List Nat), s.romState = .building → 32801 ≤ moves.length →
    (builderMoves moves s).romState = .built ∨ (builderMoves moves s).romState = .failed) ∧
  (∀ (sch : Schedule) (run : Nat → State) (n : Nat), Follows sch run → (∀ k, sch k ≠ .rst) →
    (run 0).eagerDue = false → (run 0).romState = .building → 32801 ≤ builderTurns sch n →
    (run n).romState = .built ∨ (run n).romState = .failed) ∧
  (∀ (sch : Schedule) (run : Nat → State), Follows sch run → (∀ k, sch k ≠ .rst) → BuilderFair sch →
    (run 0).romState = .building →
    ∃ n, ∀ m, n ≤ m →
      ((run m).romState = .built ∨ (run m).romState = .failed) ∧
      (sch m = .host → (run m).port ≠ none → (run (m + 1)).port = none ∧ (run (m + 1)).rsp ≠ none))

/-- R142: `ROM_STATE` changes only by the listed events. The eager start is the one R142 lists: in a state that
`EagerConsistent` (an invariant, O60) admits, `EAGER_BUILD` is true and the port is still empty. -/
def Obligations.RomStateTransitions : Prop :=
  ∀ s t : State, step s = .next t → t.romState ≠ s.romState →
    (ResetNext s ∧ t.romState = .uninit) ∨
    (s.eagerDue = true ∧ ¬ ResetNext s ∧ s.romState = .uninit ∧ t.romState = .building ∧
      (EagerConsistent s → s.cfg.eagerBuild = true ∧ s.port = none)) ∨
    (s.turns.head? = some .host ∧ s.romState = .uninit ∧ t.romState = .building ∧
      ∃ w, (s.port = some w ∨ (s.port = none ∧ s.hostQueue.head? = some w)) ∧
        (decode (.cmd32 w) = .ok .romBuild ∨
          ∃ prn idx, decode (.cmd32 w) = .ok (.romRead prn idx) ∧
            1 ≤ prn.toNat ∧ prn.toNat ≤ 32 ∧ idx.toNat ≤ 1022)) ∨
    (BuilderNext s ∧ s.romState = .building ∧ (t.romState = .built ∨ t.romState = .failed))

/-- R60, R47: in BUILT and in FAILED neither `ROM_STATE` nor any cell of `CODE` changes except by reset. -/
def Obligations.BuiltTableIsConstant : Prop :=
  ∀ s t : State, step s = .next t → ¬ ResetNext s → s.romState = .built ∨ s.romState = .failed →
    t.romState = s.romState ∧ ∀ a, codeRead t.code a = codeRead s.code a

/-- R55: only the builder writes `CODE`, and only in BUILDING: any other step that is no reset leaves every cell. -/
def Obligations.OnlyTheBuilderWritesCode : Prop :=
  ∀ s t : State, step s = .next t → ¬ ResetNext s →
    (BuilderNext s → s.romState ≠ .building) →
    ∀ a, codeRead t.code a = codeRead s.code a

/-- R148: with the eager start due, the first step, whatever turn comes next (unless reset is still asserted), moves UNINIT
to BUILDING, before any command is accepted, and changes nothing else; and so from the reset state with `EAGER_BUILD`;
without it the first step runs the host's command from UNINIT. (The builder's private cursor may move; nothing is said of
where. That the transition is a step of its own, and waits while reset is asserted, is the model's reading, log 11.) -/
def Obligations.EagerBuildComesFirst : Prop :=
  (∀ s : State, s.eagerDue = true → ¬ ResetNext s →
    (s.romState = .uninit → ∃ c : Cursor,
      step s = .next { s with romState := .building, cursor := c, eagerDue := false }) ∧
    (s.romState ≠ .uninit → step s = .next { s with eagerDue := false })) ∧
  ∀ (cfg : Config) (units : List LfsrUnit) (w : Word) (ws : List Word) (ts : List Turn) (i : Instr),
    (cfg.eagerBuild = true → ∃ c : Cursor,
      step { State.initial cfg units with hostQueue := w :: ws, turns := .host :: ts } =
        .next { State.initial cfg units with
          romState := .building, cursor := c, eagerDue := false, hostQueue := w :: ws, turns := .host :: ts }) ∧
    (cfg.eagerBuild = false → decode (.cmd32 w) = .ok i →
      step { State.initial cfg units with hostQueue := w :: ws, turns := .host :: ts } =
        exec i { State.initial cfg units with port := some w, hostQueue := ws, turns := ts })

/-- R146: in BUILT, `CODE` holds chip `i` of satellite `p` at `(p - 1) * 1023 + i`, for every satellite and chip. -/
def Obligations.BuiltTableHoldsEveryCode : Prop :=
  ∀ s : State, BuildConsistent s → s.romState = .built →
    ∀ (sat : Fin 32) (i : Nat), i ≤ 1022 → codeRead s.code (sat.val * 1023 + i) = some (caChip s.cfg sat i)

/-- R146: `ROM.READ p, i` in BUILT and the `(i+1)`-th `CA.STEP` after `CA.SEL p` answer the same chip. -/
def Obligations.TableAndGeneratorAgree : Prop :=
  ∀ (s : State) (prn : Prn) (idx : ChipIdx),
    BuildConsistent s → s.romState = .built → 1 ≤ prn.toNat → prn.toNat ≤ 32 → idx.toNat ≤ 1022 →
    ∃ (v : Chip) (t u : State), exec (.romRead prn idx) s = .next t ∧ t.rsp = some ⟨false, v.setWidth 32⟩ ∧
      execAll (.caSel prn :: List.replicate (idx.toNat + 1) .caStep) s = .next u ∧ u.rsp = chipResponse idx v

/-- R208, R59: what a `ROM.READ` answers does not depend on how the builder's steps interleaved: when the host's turn
completes it, it answers the chip of the code, or ROM_FAILED because the table is malformed. -/
def Obligations.ReadAnswerIgnoresInterleaving : Prop :=
  ∀ (s t : State) (w : Word) (prn : Prn) (sat : Fin 32) (idx : ChipIdx) (ts : List Turn),
    BuildConsistent s → s.eagerDue = false → s.turns = .host :: ts → s.port = some w →
    decode (.cmd32 w) = .ok (.romRead prn idx) → prn.toNat = sat.val + 1 → idx.toNat ≤ 1022 →
    step s = .next t → t.port = none →
    (TableWellFormed s.cfg ∧ t.rsp = some ⟨false, (caChip s.cfg sat idx.toNat).setWidth 32⟩) ∨
    (¬ TableWellFormed s.cfg ∧ t.rsp = some ⟨true, 5⟩)

/-- A builder's turn takes its moves (one or more, 42_code_rom.md R141); and R65, R27: the builder leaves CAGEN, the port,
the response, the standalone instances, the configuration and every input alone. -/
def Obligations.BuilderIsIsolated : Prop :=
  (∀ (s : State) (first : Nat) (more : List Nat) (ts : List Turn),
    s.eagerDue = false → s.turns = .builder first more :: ts →
    step s = .next (builderMoves (first :: more) { s with turns := ts })) ∧
  ∀ (s : State) (moves : List Nat),
    builderMoves moves s = { s with
      romState := (builderMoves moves s).romState, code := (builderMoves moves s).code
      err := (builderMoves moves s).err, errCode := (builderMoves moves s).errCode
      errPrn := (builderMoves moves s).errPrn, b1 := (builderMoves moves s).b1, b2 := (builderMoves moves s).b2
      b2Out := (builderMoves moves s).b2Out, cursor := (builderMoves moves s).cursor }

/-- R65: a `CA` command and builder steps commute, except for the error latch. -/
def Obligations.CaCommandsCommuteWithBuild : Prop :=
  ∀ (i : Instr) (s : State) (moves : List Nat),
    (∃ prn, i = .caSel prn) ∨ i = .caStep ∨ (∃ u, i = .caRdst u) →
    ∃ t u, exec i s = .next t ∧ exec i (builderMoves moves s) = .next u ∧
      u = { builderMoves moves t with err := u.err, errCode := u.errCode, errPrn := u.errPrn }

/-- R52: the pairs of a satellite and a chip index and the addresses 0..32735 of `CODE` are one to one. -/
def Obligations.CodeAddressesOneToOne : Prop :=
  (∀ (p q : Fin 32) (i j : Nat), i ≤ 1022 → j ≤ 1022 → codeAddr p i = codeAddr q j → p = q ∧ i = j) ∧
  (∀ a, a ≤ 32735 → ∃ (p : Fin 32) (i : Nat), i ≤ 1022 ∧ codeAddr p i = a) ∧
  (∀ (p : Fin 32) (i : Nat), i ≤ 1022 → codeAddr p i ≤ 32735)

/-- R147 with the default table: no two satellites have the same code. -/
def Obligations.DefaultCodesPairwiseDistinct : Prop :=
  ∀ p q : Fin 32, p ≠ q → ∃ i, i ≤ 1022 ∧ caChip defaultConfig p i ≠ caChip defaultConfig q i

/-! ### System commands, the latch, the status word -/

/-- R160: `NOP` completes, answers 0, and changes nothing else. -/
def Obligations.NopCommand : Prop :=
  ∀ s : State, exec .nop s = .next { s with port := none, rsp := some ⟨false, 0⟩ }

/-- R161, R34: `STATUS` completes, answers the word whose every field R34 gives, and changes nothing else. -/
def Obligations.StatusCommand : Prop :=
  ∀ s : State, ∃ d : Word,
    exec .status s = .next { s with port := none, rsp := some ⟨false, d⟩ } ∧
    d.extractLsb' 0 2 =
      (match s.romState with | .uninit => 0#2 | .building => 1#2 | .built => 2#2 | .failed => 3#2) ∧
    d.getLsbD 2 = s.err ∧ d.getLsbD 3 = false ∧ d.extractLsb' 4 4 = s.errCode ∧ d.extractLsb' 8 6 = s.selPrn ∧
    d.extractLsb' 14 2 = 0#2 ∧ d.extractLsb' 16 10 = s.chipCnt ∧ d.extractLsb' 26 6 = s.errPrn

/-- R170: a command that answers an error has no effect but the response and the latch. -/
def Obligations.FaultHasNoOtherEffect : Prop :=
  ∀ (i : Instr) (s t : State) (d : Word), i.format = .cmd32 → exec i s = .next t → t.rsp = some ⟨true, d⟩ →
    ∃ (code : BitVec 4) (prn : BitVec 6),
      1 ≤ code.toNat ∧ code.toNat ≤ 8 ∧ d = code.setWidth 32 ∧ t = afterFault code prn s

/-- R182: once set, the latch keeps its code and its satellite; "Only reset clears it". -/
def Obligations.OnlyResetClearsTheLatch : Prop :=
  ∀ s t : State, step s = .next t → ¬ ResetNext s → s.err = true →
    t.err = true ∧ t.errCode = s.errCode ∧ t.errPrn = s.errPrn

/-- R205: a `ROM.READ` with valid operands in UNINIT or BUILDING holds, with no response and in BUILDING; it is the only
wait: any other host turn that runs a command leaves the port empty and a response; and only a builder step (or a reset,
which discards the command) ends the BUILDING that it waits on. -/
def Obligations.TheHoldIsTheOnlyWait : Prop :=
  (∀ s t : State, step s = .next t → s.romState = .building → t.romState ≠ .building →
    BuilderNext s ∨ ResetNext s) ∧
  ∀ (s t : State) (w : Word) (ts : List Turn),
    s.eagerDue = false → s.turns = .host :: ts →
    (s.port = some w ∨ (s.port = none ∧ s.hostQueue.head? = some w)) → step s = .next t →
    ((∃ prn idx, decode (.cmd32 w) = .ok (.romRead prn idx) ∧ 1 ≤ prn.toNat ∧ prn.toNat ≤ 32 ∧ idx.toNat ≤ 1022) ∧
      (s.romState = .uninit ∨ s.romState = .building) →
      t.port = some w ∧ t.rsp = none ∧ t.romState = .building) ∧
    (¬ ((∃ prn idx, decode (.cmd32 w) = .ok (.romRead prn idx) ∧ 1 ≤ prn.toNat ∧ prn.toNat ≤ 32 ∧ idx.toNat ≤ 1022) ∧
      (s.romState = .uninit ∨ s.romState = .building)) →
      t.port = none ∧ t.rsp ≠ none)

/-! ### Frames -/

/-- What a host command leaves alone: the configuration, every cell of `CODE`, the builder's registers, the standalone
instances and every input; CAGEN's registers but for `CA.SEL` and `CA.STEP`, of which `CA.STEP` leaves the selection and
the output taps; `ROM_STATE` and the cursor but for `ROM.BUILD` and `ROM.READ`; the latch unless it answers an error. -/
def Obligations.CommandFrame : Prop :=
  ∀ (i : Instr) (s t : State), i.format = .cmd32 → exec i s = .next t →
    t.cfg = s.cfg ∧ (∀ a, codeRead t.code a = codeRead s.code a) ∧
    t.b1 = s.b1 ∧ t.b2 = s.b2 ∧ t.b2Out = s.b2Out ∧ t.lfsrs = s.lfsrs ∧ t.lfsrAt = s.lfsrAt ∧
    t.hostQueue = s.hostQueue ∧ t.turns = s.turns ∧ t.eagerDue = s.eagerDue ∧
    ((∀ prn, i ≠ .caSel prn) → t.selPrn = s.selPrn ∧ t.g2Out = s.g2Out) ∧
    ((∀ prn, i ≠ .caSel prn) → i ≠ .caStep → t.g1 = s.g1 ∧ t.g2 = s.g2 ∧ t.chipCnt = s.chipCnt) ∧
    (i ≠ .romBuild → (∀ prn idx, i ≠ .romRead prn idx) → t.romState = s.romState ∧ t.cursor = s.cursor) ∧
    ((∀ d, t.rsp ≠ some ⟨true, d⟩) → t.err = s.err ∧ t.errCode = s.errCode ∧ t.errPrn = s.errPrn)

/-- What an `LFSR` control leaves alone: every register of the block, all of `CODE`, the latch, the port, and every other
standalone instance. -/
def Obligations.ControlFrame : Prop :=
  ∀ (i : Instr) (s t : State), i.format = .lfsrCtl → exec i s = .next t →
    t = { s with lfsrs := t.lfsrs } ∧ t.lfsrs.length = s.lfsrs.length ∧
    ∀ k, k ≠ s.lfsrAt → t.lfsrs[k]? = s.lfsrs[k]?

/-- R36: no step changes the configuration: the tap table, `EAGER_BUILD`, or an instance's tap sets. -/
def Obligations.ConfigurationIsConstant : Prop :=
  ∀ s t : State, step s = .next t →
    t.cfg = s.cfg ∧
    (t.lfsrs.map fun u => (u.outTaps, u.fbTaps)) = (s.lfsrs.map fun u => (u.outTaps, u.fbTaps))

/-! ### Reset -/

/-- R45: the values the spec gives at reset. -/
def Obligations.ResetStateValues : Prop :=
  State.reset.g1 = 0x3FF ∧ State.reset.g2 = 0x3FF ∧ State.reset.g2Out = 0 ∧ State.reset.selPrn = 0 ∧
  State.reset.chipCnt = 0 ∧ State.reset.romState = .uninit ∧ State.reset.err = false ∧ State.reset.errCode = 0 ∧
  State.reset.errPrn = 0 ∧ State.reset.port = none ∧ State.reset.rsp = none ∧
  (∀ u ∈ State.reset.lfsrs, u.s = 0x3FF) ∧ State.reset.cfg = defaultConfig

/-- R200, R45, R148: while `rst` is asserted every state element takes its reset value; a command that was presented is
discarded without a response; the build is lost; the eager start is due again exactly when `EAGER_BUILD` is true; and the
configuration stays. -/
def Obligations.ResetTakesEveryElementToItsValue : Prop :=
  ∀ (s : State) (ts : List Turn), s.turns = .rst :: ts →
    ∃ t, step s = .next t ∧ t.g1 = 0x3FF ∧ t.g2 = 0x3FF ∧ t.g2Out = 0 ∧ t.selPrn = 0 ∧ t.chipCnt = 0 ∧
      t.romState = .uninit ∧ (∀ a, codeRead t.code a = none) ∧ t.err = false ∧ t.errCode = 0 ∧ t.errPrn = 0 ∧
      t.port = none ∧ t.rsp = none ∧ t.eagerDue = s.cfg.eagerBuild ∧ t.cfg = s.cfg ∧ t.lfsrs.length = s.lfsrs.length ∧
      (∀ u ∈ t.lfsrs, u.s = 0x3FF) ∧
      (t.lfsrs.map fun u => (u.outTaps, u.fbTaps)) = (s.lfsrs.map fun u => (u.outTaps, u.fbTaps)) ∧ t.turns = ts

/-! ### Invariants -/

/-- Every invariant below, and the canonical form of `CODE`, holds at reset, for every configuration. -/
def Obligations.InvariantsHoldAtReset : Prop :=
  ∀ (cfg : Config) (units : List LfsrUnit),
    Consistent (State.initial cfg units) ∧ codeWf (State.initial cfg units).code = true

/-- R47: `CHIP_CNT` stays in 0..1022, `SEL_PRN` in 0..32, and `SEL_PRN = 0` exactly when `G2_OUT = 0`. -/
def Obligations.StepKeepsRegistersInRange : Prop :=
  ∀ s t : State, step s = .next t → RegistersInRange s → RegistersInRange t

/-- R173, R171: `ERR_CODE` is 0 while `ERR = 0` and a code of 1..8 else; `ERR_PRN` is 0 while `ERR = 0`. -/
def Obligations.StepKeepsLatchConsistent : Prop :=
  ∀ s t : State, step s = .next t → LatchConsistent s → LatchConsistent t

/-- R121, R24: `G2_OUT` stays the mask of the selected satellite's entry, which is well formed. -/
def Obligations.StepKeepsSelectionConsistent : Prop :=
  ∀ s t : State, step s = .next t → SelectionConsistent s → SelectionConsistent t

/-- R126, R128: `G1` and `G2` stay the same number of steps from all ones, and `CHIP_CNT` counts them modulo 1023. -/
def Obligations.StepKeepsLockstep : Prop :=
  ∀ s t : State, step s = .next t → Lockstep s → Lockstep t

/-- R141, R146, R149: what the builder has written stays a prefix of the code table that the tap table determines; in
BUILT it is all of it, and FAILED means a malformed entry. -/
def Obligations.StepKeepsBuildConsistent : Prop :=
  ∀ s t : State, step s = .next t → BuildConsistent s → BuildConsistent t

/-- What stands in the port between steps stays a held `ROM.READ` with legal operands (R205), with no response pending.
That nothing else stands there is the model's choice, log 2 (DESIGN CHOICE): presenting a command and running it are one
step (00_scope.md R6), where R35 lets a presented command stand uncompleted. -/
def Obligations.StepKeepsPortConsistent : Prop :=
  ∀ s t : State, step s = .next t → PortConsistent s → PortConsistent t

/-- The canonical form of `CODE`: addresses strictly rising, all in 0..32735 (20_memory.md R50; the form is the model's,
log 4). -/
def Obligations.StepKeepsCodeCanonical : Prop :=
  ∀ s t : State, step s = .next t → codeWf s.code = true → codeWf t.code = true

/-- R148, R142, R45: the eager start is due only while `EAGER_BUILD` is true, `ROM_STATE` is UNINIT and the port is empty;
and after any step that is no reset it is no longer due, so it is due only right after a reset. (The field that says so is
the model's, log 11.) -/
def Obligations.StepKeepsEagerConsistent : Prop :=
  ∀ s t : State, step s = .next t → EagerConsistent s →
    EagerConsistent t ∧ (¬ ResetNext s → t.eagerDue = false)
end

