-- ==== Sys2Proof/Laws/Decode.lean ====
section
/-! SUPPORT. The fields of a command word, and what a mask and a match say of a word bit by bit. -/

namespace Sys2Proof

theorem opField_commandWord (op : BitVec 4) (p : Prn) (i : ChipIdx) : opField (commandWord op p i) = op := by
  ext k hk
  simp only [opField, commandWord, BitVec.getElem_extractLsb', BitVec.getLsbD_append]
  have h1 : ¬ 28 + k < 10 := by omega
  have h2 : ¬ 28 + k - 10 < 6 := by omega
  have h3 : ¬ 28 + k - 10 - 6 < 6 := by omega
  have h4 : ¬ 28 + k - 10 - 6 - 6 < 6 := by omega
  have h5 : 28 + k - 10 - 6 - 6 - 6 = k := by omega
  simp [h1, h2, h3, h4, h5, BitVec.getLsbD_eq_getElem hk]

theorem prnField_commandWord (op : BitVec 4) (p : Prn) (i : ChipIdx) : prnField (commandWord op p i) = p := by
  ext k hk
  simp only [prnField, commandWord, BitVec.getElem_extractLsb', BitVec.getLsbD_append]
  have h1 : ¬ 16 + k < 10 := by omega
  have h2 : ¬ 16 + k - 10 < 6 := by omega
  have h5 : 16 + k - 10 - 6 = k := by omega
  simp [h1, h2, h5, hk]

theorem idxField_commandWord (op : BitVec 4) (p : Prn) (i : ChipIdx) : idxField (commandWord op p i) = i := by
  ext k hk
  simp only [idxField, commandWord, BitVec.getElem_extractLsb', BitVec.getLsbD_append]
  simp [hk]

/-- A command word as a number: each field at its place (30_encoding.md R71). -/
theorem commandWord_toNat (op : BitVec 4) (p : Prn) (i : ChipIdx) :
    (commandWord op p i).toNat = op.toNat * 2 ^ 28 + p.toNat * 2 ^ 16 + i.toNat := by
  have h1 := i.isLt
  have h2 := p.isLt
  simp only [commandWord, BitVec.toNat_append, BitVec.toNat_ofNat, Nat.zero_mod, Nat.or_zero]
  rw [← Nat.shiftLeft_add_eq_or_of_lt h2, ← Nat.shiftLeft_add_eq_or_of_lt h1]
  simp only [Nat.shiftLeft_eq]
  ring

/-- A word whose reserved bits are 0 is the command word of its fields. -/
theorem commandWord_of_fields (w : Word) (h1 : w.extractLsb' 22 6 = 0) (h2 : w.extractLsb' 10 6 = 0) :
    commandWord (opField w) (prnField w) (idxField w) = w := by
  apply BitVec.eq_of_toNat_eq
  rw [commandWord_toNat]
  have e1 := congrArg BitVec.toNat h1
  have e2 := congrArg BitVec.toNat h2
  simp only [opField, prnField, idxField, BitVec.extractLsb'_toNat, Nat.shiftRight_eq_div_pow, BitVec.ofNat_eq_ofNat,
    BitVec.toNat_ofNat] at e1 e2 ⊢
  have := w.isLt
  omega

/-- A word under a mask, bit by bit. -/
theorem and_mask_eq_iff (w m p : Word) :
    w &&& m = p ↔ ∀ k < 32, (w.getLsbD k && m.getLsbD k) = p.getLsbD k := by
  constructor
  · rintro rfl k _; simp
  · intro h; apply BitVec.eq_of_getLsbD_eq; intro k hk; simpa using h k hk

/-- Under the mask of `ROM.READ`, which fixes the fewest bits, a command word is its operation alone. -/
theorem commandWord_and_mask (op : BitVec 4) (p : Prn) (i : ChipIdx) :
    commandWord op p i &&& 0xFFC0FC00 = commandWord op 0 0 := by
  rw [and_mask_eq_iff]
  intro k hk
  simp only [commandWord, BitVec.getLsbD_append]
  interval_cases k <;> simp

end Sys2Proof
end

