-- ==== Sys2Proof/Laws/State.lean ====
section
/-! SUPPORT. The fields of a state after each named update, one lemma a field, so that no proof unfolds an update. -/

namespace Sys2Proof.Machine

/-! ### respond -/

@[simp] theorem respond_g1 (d : Word) (s : State) : (respond d s).g1 = s.g1 := rfl
@[simp] theorem respond_g2 (d : Word) (s : State) : (respond d s).g2 = s.g2 := rfl
@[simp] theorem respond_g2Out (d : Word) (s : State) : (respond d s).g2Out = s.g2Out := rfl
@[simp] theorem respond_selPrn (d : Word) (s : State) : (respond d s).selPrn = s.selPrn := rfl
@[simp] theorem respond_chipCnt (d : Word) (s : State) : (respond d s).chipCnt = s.chipCnt := rfl
@[simp] theorem respond_romState (d : Word) (s : State) : (respond d s).romState = s.romState := rfl
@[simp] theorem respond_code (d : Word) (s : State) : (respond d s).code = s.code := rfl
@[simp] theorem respond_err (d : Word) (s : State) : (respond d s).err = s.err := rfl
@[simp] theorem respond_errCode (d : Word) (s : State) : (respond d s).errCode = s.errCode := rfl
@[simp] theorem respond_errPrn (d : Word) (s : State) : (respond d s).errPrn = s.errPrn := rfl
@[simp] theorem respond_port (d : Word) (s : State) : (respond d s).port = none := rfl
@[simp] theorem respond_rsp (d : Word) (s : State) : (respond d s).rsp = some ⟨false, d⟩ := rfl
@[simp] theorem respond_b1 (d : Word) (s : State) : (respond d s).b1 = s.b1 := rfl
@[simp] theorem respond_b2 (d : Word) (s : State) : (respond d s).b2 = s.b2 := rfl
@[simp] theorem respond_b2Out (d : Word) (s : State) : (respond d s).b2Out = s.b2Out := rfl
@[simp] theorem respond_cursor (d : Word) (s : State) : (respond d s).cursor = s.cursor := rfl
@[simp] theorem respond_lfsrs (d : Word) (s : State) : (respond d s).lfsrs = s.lfsrs := rfl
@[simp] theorem respond_cfg (d : Word) (s : State) : (respond d s).cfg = s.cfg := rfl
@[simp] theorem respond_eagerDue (d : Word) (s : State) : (respond d s).eagerDue = s.eagerDue := rfl
@[simp] theorem respond_lfsrAt (d : Word) (s : State) : (respond d s).lfsrAt = s.lfsrAt := rfl
@[simp] theorem respond_hostQueue (d : Word) (s : State) : (respond d s).hostQueue = s.hostQueue := rfl
@[simp] theorem respond_turns (d : Word) (s : State) : (respond d s).turns = s.turns := rfl

/-! ### hold -/

@[simp] theorem hold_g1 (s : State) : (hold s).g1 = s.g1 := rfl
@[simp] theorem hold_g2 (s : State) : (hold s).g2 = s.g2 := rfl
@[simp] theorem hold_g2Out (s : State) : (hold s).g2Out = s.g2Out := rfl
@[simp] theorem hold_selPrn (s : State) : (hold s).selPrn = s.selPrn := rfl
@[simp] theorem hold_chipCnt (s : State) : (hold s).chipCnt = s.chipCnt := rfl
@[simp] theorem hold_romState (s : State) : (hold s).romState = s.romState := rfl
@[simp] theorem hold_code (s : State) : (hold s).code = s.code := rfl
@[simp] theorem hold_err (s : State) : (hold s).err = s.err := rfl
@[simp] theorem hold_errCode (s : State) : (hold s).errCode = s.errCode := rfl
@[simp] theorem hold_errPrn (s : State) : (hold s).errPrn = s.errPrn := rfl
@[simp] theorem hold_port (s : State) : (hold s).port = s.port := rfl
@[simp] theorem hold_rsp (s : State) : (hold s).rsp = none := rfl
@[simp] theorem hold_b1 (s : State) : (hold s).b1 = s.b1 := rfl
@[simp] theorem hold_b2 (s : State) : (hold s).b2 = s.b2 := rfl
@[simp] theorem hold_b2Out (s : State) : (hold s).b2Out = s.b2Out := rfl
@[simp] theorem hold_cursor (s : State) : (hold s).cursor = s.cursor := rfl
@[simp] theorem hold_lfsrs (s : State) : (hold s).lfsrs = s.lfsrs := rfl
@[simp] theorem hold_cfg (s : State) : (hold s).cfg = s.cfg := rfl
@[simp] theorem hold_eagerDue (s : State) : (hold s).eagerDue = s.eagerDue := rfl
@[simp] theorem hold_lfsrAt (s : State) : (hold s).lfsrAt = s.lfsrAt := rfl
@[simp] theorem hold_hostQueue (s : State) : (hold s).hostQueue = s.hostQueue := rfl
@[simp] theorem hold_turns (s : State) : (hold s).turns = s.turns := rfl

/-! ### latch -/

@[simp] theorem latch_g1 (c : FaultCode) (p : BitVec 6) (s : State) : (latch c p s).g1 = s.g1 := by unfold latch; split <;> rfl
@[simp] theorem latch_g2 (c : FaultCode) (p : BitVec 6) (s : State) : (latch c p s).g2 = s.g2 := by unfold latch; split <;> rfl
@[simp] theorem latch_g2Out (c : FaultCode) (p : BitVec 6) (s : State) : (latch c p s).g2Out = s.g2Out := by unfold latch; split <;> rfl
@[simp] theorem latch_selPrn (c : FaultCode) (p : BitVec 6) (s : State) : (latch c p s).selPrn = s.selPrn := by unfold latch; split <;> rfl
@[simp] theorem latch_chipCnt (c : FaultCode) (p : BitVec 6) (s : State) : (latch c p s).chipCnt = s.chipCnt := by unfold latch; split <;> rfl
@[simp] theorem latch_romState (c : FaultCode) (p : BitVec 6) (s : State) : (latch c p s).romState = s.romState := by unfold latch; split <;> rfl
@[simp] theorem latch_code (c : FaultCode) (p : BitVec 6) (s : State) : (latch c p s).code = s.code := by unfold latch; split <;> rfl
@[simp] theorem latch_err (c : FaultCode) (p : BitVec 6) (s : State) : (latch c p s).err = true := by unfold latch; split <;> simp_all
@[simp] theorem latch_errCode (c : FaultCode) (p : BitVec 6) (s : State) : (latch c p s).errCode = if s.err then s.errCode else c.bits := by unfold latch; split <;> simp_all
@[simp] theorem latch_errPrn (c : FaultCode) (p : BitVec 6) (s : State) : (latch c p s).errPrn = if s.err then s.errPrn else p := by unfold latch; split <;> simp_all
@[simp] theorem latch_port (c : FaultCode) (p : BitVec 6) (s : State) : (latch c p s).port = s.port := by unfold latch; split <;> rfl
@[simp] theorem latch_rsp (c : FaultCode) (p : BitVec 6) (s : State) : (latch c p s).rsp = s.rsp := by unfold latch; split <;> rfl
@[simp] theorem latch_b1 (c : FaultCode) (p : BitVec 6) (s : State) : (latch c p s).b1 = s.b1 := by unfold latch; split <;> rfl
@[simp] theorem latch_b2 (c : FaultCode) (p : BitVec 6) (s : State) : (latch c p s).b2 = s.b2 := by unfold latch; split <;> rfl
@[simp] theorem latch_b2Out (c : FaultCode) (p : BitVec 6) (s : State) : (latch c p s).b2Out = s.b2Out := by unfold latch; split <;> rfl
@[simp] theorem latch_cursor (c : FaultCode) (p : BitVec 6) (s : State) : (latch c p s).cursor = s.cursor := by unfold latch; split <;> rfl
@[simp] theorem latch_lfsrs (c : FaultCode) (p : BitVec 6) (s : State) : (latch c p s).lfsrs = s.lfsrs := by unfold latch; split <;> rfl
@[simp] theorem latch_cfg (c : FaultCode) (p : BitVec 6) (s : State) : (latch c p s).cfg = s.cfg := by unfold latch; split <;> rfl
@[simp] theorem latch_eagerDue (c : FaultCode) (p : BitVec 6) (s : State) : (latch c p s).eagerDue = s.eagerDue := by unfold latch; split <;> rfl
@[simp] theorem latch_lfsrAt (c : FaultCode) (p : BitVec 6) (s : State) : (latch c p s).lfsrAt = s.lfsrAt := by unfold latch; split <;> rfl
@[simp] theorem latch_hostQueue (c : FaultCode) (p : BitVec 6) (s : State) : (latch c p s).hostQueue = s.hostQueue := by unfold latch; split <;> rfl
@[simp] theorem latch_turns (c : FaultCode) (p : BitVec 6) (s : State) : (latch c p s).turns = s.turns := by unfold latch; split <;> rfl

/-! ### raiseFault -/

@[simp] theorem raiseFault_g1 (c : FaultCode) (p : BitVec 6) (s : State) : (raiseFault c p s).g1 = s.g1 := by simp [raiseFault]
@[simp] theorem raiseFault_g2 (c : FaultCode) (p : BitVec 6) (s : State) : (raiseFault c p s).g2 = s.g2 := by simp [raiseFault]
@[simp] theorem raiseFault_g2Out (c : FaultCode) (p : BitVec 6) (s : State) : (raiseFault c p s).g2Out = s.g2Out := by simp [raiseFault]
@[simp] theorem raiseFault_selPrn (c : FaultCode) (p : BitVec 6) (s : State) : (raiseFault c p s).selPrn = s.selPrn := by simp [raiseFault]
@[simp] theorem raiseFault_chipCnt (c : FaultCode) (p : BitVec 6) (s : State) : (raiseFault c p s).chipCnt = s.chipCnt := by simp [raiseFault]
@[simp] theorem raiseFault_romState (c : FaultCode) (p : BitVec 6) (s : State) : (raiseFault c p s).romState = s.romState := by simp [raiseFault]
@[simp] theorem raiseFault_code (c : FaultCode) (p : BitVec 6) (s : State) : (raiseFault c p s).code = s.code := by simp [raiseFault]
@[simp] theorem raiseFault_err (c : FaultCode) (p : BitVec 6) (s : State) : (raiseFault c p s).err = true := by simp [raiseFault]
@[simp] theorem raiseFault_errCode (c : FaultCode) (p : BitVec 6) (s : State) : (raiseFault c p s).errCode = if s.err then s.errCode else c.bits := by simp [raiseFault]
@[simp] theorem raiseFault_errPrn (c : FaultCode) (p : BitVec 6) (s : State) : (raiseFault c p s).errPrn = if s.err then s.errPrn else p := by simp [raiseFault]
@[simp] theorem raiseFault_port (c : FaultCode) (p : BitVec 6) (s : State) : (raiseFault c p s).port = none := rfl
@[simp] theorem raiseFault_rsp (c : FaultCode) (p : BitVec 6) (s : State) : (raiseFault c p s).rsp = some ⟨true, c.bits.setWidth 32⟩ := rfl
@[simp] theorem raiseFault_b1 (c : FaultCode) (p : BitVec 6) (s : State) : (raiseFault c p s).b1 = s.b1 := by simp [raiseFault]
@[simp] theorem raiseFault_b2 (c : FaultCode) (p : BitVec 6) (s : State) : (raiseFault c p s).b2 = s.b2 := by simp [raiseFault]
@[simp] theorem raiseFault_b2Out (c : FaultCode) (p : BitVec 6) (s : State) : (raiseFault c p s).b2Out = s.b2Out := by simp [raiseFault]
@[simp] theorem raiseFault_cursor (c : FaultCode) (p : BitVec 6) (s : State) : (raiseFault c p s).cursor = s.cursor := by simp [raiseFault]
@[simp] theorem raiseFault_lfsrs (c : FaultCode) (p : BitVec 6) (s : State) : (raiseFault c p s).lfsrs = s.lfsrs := by simp [raiseFault]
@[simp] theorem raiseFault_cfg (c : FaultCode) (p : BitVec 6) (s : State) : (raiseFault c p s).cfg = s.cfg := by simp [raiseFault]
@[simp] theorem raiseFault_eagerDue (c : FaultCode) (p : BitVec 6) (s : State) : (raiseFault c p s).eagerDue = s.eagerDue := by simp [raiseFault]
@[simp] theorem raiseFault_lfsrAt (c : FaultCode) (p : BitVec 6) (s : State) : (raiseFault c p s).lfsrAt = s.lfsrAt := by simp [raiseFault]
@[simp] theorem raiseFault_hostQueue (c : FaultCode) (p : BitVec 6) (s : State) : (raiseFault c p s).hostQueue = s.hostQueue := by simp [raiseFault]
@[simp] theorem raiseFault_turns (c : FaultCode) (p : BitVec 6) (s : State) : (raiseFault c p s).turns = s.turns := by simp [raiseFault]

/-! ### selectSat -/

@[simp] theorem selectSat_g1 (p : Prn) (e : TapEntry) (s : State) : (selectSat p e s).g1 = seed := rfl
@[simp] theorem selectSat_g2 (p : Prn) (e : TapEntry) (s : State) : (selectSat p e s).g2 = seed := rfl
@[simp] theorem selectSat_g2Out (p : Prn) (e : TapEntry) (s : State) : (selectSat p e s).g2Out = entryMask e := rfl
@[simp] theorem selectSat_selPrn (p : Prn) (e : TapEntry) (s : State) : (selectSat p e s).selPrn = p := rfl
@[simp] theorem selectSat_chipCnt (p : Prn) (e : TapEntry) (s : State) : (selectSat p e s).chipCnt = 0 := rfl
@[simp] theorem selectSat_romState (p : Prn) (e : TapEntry) (s : State) : (selectSat p e s).romState = s.romState := rfl
@[simp] theorem selectSat_code (p : Prn) (e : TapEntry) (s : State) : (selectSat p e s).code = s.code := rfl
@[simp] theorem selectSat_err (p : Prn) (e : TapEntry) (s : State) : (selectSat p e s).err = s.err := rfl
@[simp] theorem selectSat_errCode (p : Prn) (e : TapEntry) (s : State) : (selectSat p e s).errCode = s.errCode := rfl
@[simp] theorem selectSat_errPrn (p : Prn) (e : TapEntry) (s : State) : (selectSat p e s).errPrn = s.errPrn := rfl
@[simp] theorem selectSat_port (p : Prn) (e : TapEntry) (s : State) : (selectSat p e s).port = s.port := rfl
@[simp] theorem selectSat_rsp (p : Prn) (e : TapEntry) (s : State) : (selectSat p e s).rsp = s.rsp := rfl
@[simp] theorem selectSat_b1 (p : Prn) (e : TapEntry) (s : State) : (selectSat p e s).b1 = s.b1 := rfl
@[simp] theorem selectSat_b2 (p : Prn) (e : TapEntry) (s : State) : (selectSat p e s).b2 = s.b2 := rfl
@[simp] theorem selectSat_b2Out (p : Prn) (e : TapEntry) (s : State) : (selectSat p e s).b2Out = s.b2Out := rfl
@[simp] theorem selectSat_cursor (p : Prn) (e : TapEntry) (s : State) : (selectSat p e s).cursor = s.cursor := rfl
@[simp] theorem selectSat_lfsrs (p : Prn) (e : TapEntry) (s : State) : (selectSat p e s).lfsrs = s.lfsrs := rfl
@[simp] theorem selectSat_cfg (p : Prn) (e : TapEntry) (s : State) : (selectSat p e s).cfg = s.cfg := rfl
@[simp] theorem selectSat_eagerDue (p : Prn) (e : TapEntry) (s : State) : (selectSat p e s).eagerDue = s.eagerDue := rfl
@[simp] theorem selectSat_lfsrAt (p : Prn) (e : TapEntry) (s : State) : (selectSat p e s).lfsrAt = s.lfsrAt := rfl
@[simp] theorem selectSat_hostQueue (p : Prn) (e : TapEntry) (s : State) : (selectSat p e s).hostQueue = s.hostQueue := rfl
@[simp] theorem selectSat_turns (p : Prn) (e : TapEntry) (s : State) : (selectSat p e s).turns = s.turns := rfl

/-! ### stepCaGen -/

@[simp] theorem stepCaGen_g1 (s : State) : (stepCaGen s).g1 = shift g1FbTaps s.g1 := rfl
@[simp] theorem stepCaGen_g2 (s : State) : (stepCaGen s).g2 = shift g2FbTaps s.g2 := rfl
@[simp] theorem stepCaGen_g2Out (s : State) : (stepCaGen s).g2Out = s.g2Out := rfl
@[simp] theorem stepCaGen_selPrn (s : State) : (stepCaGen s).selPrn = s.selPrn := rfl
@[simp] theorem stepCaGen_chipCnt (s : State) : (stepCaGen s).chipCnt = BitVec.ofNat 10 ((s.chipCnt.toNat + 1) % 1023) := rfl
@[simp] theorem stepCaGen_romState (s : State) : (stepCaGen s).romState = s.romState := rfl
@[simp] theorem stepCaGen_code (s : State) : (stepCaGen s).code = s.code := rfl
@[simp] theorem stepCaGen_err (s : State) : (stepCaGen s).err = s.err := rfl
@[simp] theorem stepCaGen_errCode (s : State) : (stepCaGen s).errCode = s.errCode := rfl
@[simp] theorem stepCaGen_errPrn (s : State) : (stepCaGen s).errPrn = s.errPrn := rfl
@[simp] theorem stepCaGen_port (s : State) : (stepCaGen s).port = s.port := rfl
@[simp] theorem stepCaGen_rsp (s : State) : (stepCaGen s).rsp = s.rsp := rfl
@[simp] theorem stepCaGen_b1 (s : State) : (stepCaGen s).b1 = s.b1 := rfl
@[simp] theorem stepCaGen_b2 (s : State) : (stepCaGen s).b2 = s.b2 := rfl
@[simp] theorem stepCaGen_b2Out (s : State) : (stepCaGen s).b2Out = s.b2Out := rfl
@[simp] theorem stepCaGen_cursor (s : State) : (stepCaGen s).cursor = s.cursor := rfl
@[simp] theorem stepCaGen_lfsrs (s : State) : (stepCaGen s).lfsrs = s.lfsrs := rfl
@[simp] theorem stepCaGen_cfg (s : State) : (stepCaGen s).cfg = s.cfg := rfl
@[simp] theorem stepCaGen_eagerDue (s : State) : (stepCaGen s).eagerDue = s.eagerDue := rfl
@[simp] theorem stepCaGen_lfsrAt (s : State) : (stepCaGen s).lfsrAt = s.lfsrAt := rfl
@[simp] theorem stepCaGen_hostQueue (s : State) : (stepCaGen s).hostQueue = s.hostQueue := rfl
@[simp] theorem stepCaGen_turns (s : State) : (stepCaGen s).turns = s.turns := rfl

/-! ### startBuild -/

@[simp] theorem startBuild_g1 (s : State) : (startBuild s).g1 = s.g1 := by unfold startBuild; split <;> rfl
@[simp] theorem startBuild_g2 (s : State) : (startBuild s).g2 = s.g2 := by unfold startBuild; split <;> rfl
@[simp] theorem startBuild_g2Out (s : State) : (startBuild s).g2Out = s.g2Out := by unfold startBuild; split <;> rfl
@[simp] theorem startBuild_selPrn (s : State) : (startBuild s).selPrn = s.selPrn := by unfold startBuild; split <;> rfl
@[simp] theorem startBuild_chipCnt (s : State) : (startBuild s).chipCnt = s.chipCnt := by unfold startBuild; split <;> rfl
@[simp] theorem startBuild_romState (s : State) : (startBuild s).romState = if s.romState = .uninit then .building else s.romState := by unfold startBuild; split <;> rfl
@[simp] theorem startBuild_code (s : State) : (startBuild s).code = s.code := by unfold startBuild; split <;> rfl
@[simp] theorem startBuild_err (s : State) : (startBuild s).err = s.err := by unfold startBuild; split <;> rfl
@[simp] theorem startBuild_errCode (s : State) : (startBuild s).errCode = s.errCode := by unfold startBuild; split <;> rfl
@[simp] theorem startBuild_errPrn (s : State) : (startBuild s).errPrn = s.errPrn := by unfold startBuild; split <;> rfl
@[simp] theorem startBuild_port (s : State) : (startBuild s).port = s.port := by unfold startBuild; split <;> rfl
@[simp] theorem startBuild_rsp (s : State) : (startBuild s).rsp = s.rsp := by unfold startBuild; split <;> rfl
@[simp] theorem startBuild_b1 (s : State) : (startBuild s).b1 = s.b1 := by unfold startBuild; split <;> rfl
@[simp] theorem startBuild_b2 (s : State) : (startBuild s).b2 = s.b2 := by unfold startBuild; split <;> rfl
@[simp] theorem startBuild_b2Out (s : State) : (startBuild s).b2Out = s.b2Out := by unfold startBuild; split <;> rfl
@[simp] theorem startBuild_cursor (s : State) : (startBuild s).cursor = if s.romState = .uninit then .check 0 else s.cursor := by unfold startBuild; split <;> rfl
@[simp] theorem startBuild_lfsrs (s : State) : (startBuild s).lfsrs = s.lfsrs := by unfold startBuild; split <;> rfl
@[simp] theorem startBuild_cfg (s : State) : (startBuild s).cfg = s.cfg := by unfold startBuild; split <;> rfl
@[simp] theorem startBuild_eagerDue (s : State) : (startBuild s).eagerDue = s.eagerDue := by unfold startBuild; split <;> rfl
@[simp] theorem startBuild_lfsrAt (s : State) : (startBuild s).lfsrAt = s.lfsrAt := by unfold startBuild; split <;> rfl
@[simp] theorem startBuild_hostQueue (s : State) : (startBuild s).hostQueue = s.hostQueue := by unfold startBuild; split <;> rfl
@[simp] theorem startBuild_turns (s : State) : (startBuild s).turns = s.turns := by unfold startBuild; split <;> rfl

/-! ### builderConstruct -/

@[simp] theorem builderConstruct_g1 (k : Fin 32) (s : State) : (builderConstruct k s).g1 = s.g1 := rfl
@[simp] theorem builderConstruct_g2 (k : Fin 32) (s : State) : (builderConstruct k s).g2 = s.g2 := rfl
@[simp] theorem builderConstruct_g2Out (k : Fin 32) (s : State) : (builderConstruct k s).g2Out = s.g2Out := rfl
@[simp] theorem builderConstruct_selPrn (k : Fin 32) (s : State) : (builderConstruct k s).selPrn = s.selPrn := rfl
@[simp] theorem builderConstruct_chipCnt (k : Fin 32) (s : State) : (builderConstruct k s).chipCnt = s.chipCnt := rfl
@[simp] theorem builderConstruct_romState (k : Fin 32) (s : State) : (builderConstruct k s).romState = s.romState := rfl
@[simp] theorem builderConstruct_code (k : Fin 32) (s : State) : (builderConstruct k s).code = s.code := rfl
@[simp] theorem builderConstruct_err (k : Fin 32) (s : State) : (builderConstruct k s).err = s.err := rfl
@[simp] theorem builderConstruct_errCode (k : Fin 32) (s : State) : (builderConstruct k s).errCode = s.errCode := rfl
@[simp] theorem builderConstruct_errPrn (k : Fin 32) (s : State) : (builderConstruct k s).errPrn = s.errPrn := rfl
@[simp] theorem builderConstruct_port (k : Fin 32) (s : State) : (builderConstruct k s).port = s.port := rfl
@[simp] theorem builderConstruct_rsp (k : Fin 32) (s : State) : (builderConstruct k s).rsp = s.rsp := rfl
@[simp] theorem builderConstruct_b1 (k : Fin 32) (s : State) : (builderConstruct k s).b1 = seed := rfl
@[simp] theorem builderConstruct_b2 (k : Fin 32) (s : State) : (builderConstruct k s).b2 = seed := rfl
@[simp] theorem builderConstruct_b2Out (k : Fin 32) (s : State) : (builderConstruct k s).b2Out = entryMask (tapEntry s k) := rfl
@[simp] theorem builderConstruct_cursor (k : Fin 32) (s : State) : (builderConstruct k s).cursor = .chip k 0 := rfl
@[simp] theorem builderConstruct_lfsrs (k : Fin 32) (s : State) : (builderConstruct k s).lfsrs = s.lfsrs := rfl
@[simp] theorem builderConstruct_cfg (k : Fin 32) (s : State) : (builderConstruct k s).cfg = s.cfg := rfl
@[simp] theorem builderConstruct_eagerDue (k : Fin 32) (s : State) : (builderConstruct k s).eagerDue = s.eagerDue := rfl
@[simp] theorem builderConstruct_lfsrAt (k : Fin 32) (s : State) : (builderConstruct k s).lfsrAt = s.lfsrAt := rfl
@[simp] theorem builderConstruct_hostQueue (k : Fin 32) (s : State) : (builderConstruct k s).hostQueue = s.hostQueue := rfl
@[simp] theorem builderConstruct_turns (k : Fin 32) (s : State) : (builderConstruct k s).turns = s.turns := rfl

/-! ### builderChips -/

@[simp] theorem builderChips_g1 (k : Fin 32) (i : Fin 1023) (n : Nat) (s : State) : (builderChips k i n s).g1 = s.g1 := rfl
@[simp] theorem builderChips_g2 (k : Fin 32) (i : Fin 1023) (n : Nat) (s : State) : (builderChips k i n s).g2 = s.g2 := rfl
@[simp] theorem builderChips_g2Out (k : Fin 32) (i : Fin 1023) (n : Nat) (s : State) : (builderChips k i n s).g2Out = s.g2Out := rfl
@[simp] theorem builderChips_selPrn (k : Fin 32) (i : Fin 1023) (n : Nat) (s : State) : (builderChips k i n s).selPrn = s.selPrn := rfl
@[simp] theorem builderChips_chipCnt (k : Fin 32) (i : Fin 1023) (n : Nat) (s : State) : (builderChips k i n s).chipCnt = s.chipCnt := rfl
@[simp] theorem builderChips_romState (k : Fin 32) (i : Fin 1023) (n : Nat) (s : State) : (builderChips k i n s).romState = s.romState := rfl
@[simp] theorem builderChips_code (k : Fin 32) (i : Fin 1023) (n : Nat) (s : State) : (builderChips k i n s).code = codeWriteRun s.code (codeAddr k i) (chipRun n s.b1 s.b2 s.b2Out) := rfl
@[simp] theorem builderChips_err (k : Fin 32) (i : Fin 1023) (n : Nat) (s : State) : (builderChips k i n s).err = s.err := rfl
@[simp] theorem builderChips_errCode (k : Fin 32) (i : Fin 1023) (n : Nat) (s : State) : (builderChips k i n s).errCode = s.errCode := rfl
@[simp] theorem builderChips_errPrn (k : Fin 32) (i : Fin 1023) (n : Nat) (s : State) : (builderChips k i n s).errPrn = s.errPrn := rfl
@[simp] theorem builderChips_port (k : Fin 32) (i : Fin 1023) (n : Nat) (s : State) : (builderChips k i n s).port = s.port := rfl
@[simp] theorem builderChips_rsp (k : Fin 32) (i : Fin 1023) (n : Nat) (s : State) : (builderChips k i n s).rsp = s.rsp := rfl
@[simp] theorem builderChips_b1 (k : Fin 32) (i : Fin 1023) (n : Nat) (s : State) : (builderChips k i n s).b1 = shiftN g1FbTaps n s.b1 := rfl
@[simp] theorem builderChips_b2 (k : Fin 32) (i : Fin 1023) (n : Nat) (s : State) : (builderChips k i n s).b2 = shiftN g2FbTaps n s.b2 := rfl
@[simp] theorem builderChips_b2Out (k : Fin 32) (i : Fin 1023) (n : Nat) (s : State) : (builderChips k i n s).b2Out = s.b2Out := rfl
@[simp] theorem builderChips_cursor (k : Fin 32) (i : Fin 1023) (n : Nat) (s : State) : (builderChips k i n s).cursor = afterChips k i n := rfl
@[simp] theorem builderChips_lfsrs (k : Fin 32) (i : Fin 1023) (n : Nat) (s : State) : (builderChips k i n s).lfsrs = s.lfsrs := rfl
@[simp] theorem builderChips_cfg (k : Fin 32) (i : Fin 1023) (n : Nat) (s : State) : (builderChips k i n s).cfg = s.cfg := rfl
@[simp] theorem builderChips_eagerDue (k : Fin 32) (i : Fin 1023) (n : Nat) (s : State) : (builderChips k i n s).eagerDue = s.eagerDue := rfl
@[simp] theorem builderChips_lfsrAt (k : Fin 32) (i : Fin 1023) (n : Nat) (s : State) : (builderChips k i n s).lfsrAt = s.lfsrAt := rfl
@[simp] theorem builderChips_hostQueue (k : Fin 32) (i : Fin 1023) (n : Nat) (s : State) : (builderChips k i n s).hostQueue = s.hostQueue := rfl
@[simp] theorem builderChips_turns (k : Fin 32) (i : Fin 1023) (n : Nat) (s : State) : (builderChips k i n s).turns = s.turns := rfl

end Sys2Proof.Machine
end

