-- ==== Sys2Proof/Laws/Ops.lean ====
section
/-! SUPPORT. What each shared operation does: operand forms, `CODE` (read after write, the canonical form), shifts and
chip runs. -/

namespace Sys2Proof.Machine

/-! ### Operand forms -/

/-- What a `PRN` field names. -/
theorem satOfPrn_eq_some {prn : Prn} {sat : Fin 32} :
    satOfPrn prn = some sat ↔ prn.toNat = sat.val + 1 := by
  unfold satOfPrn
  split
  · simp only [Option.some.injEq, Fin.ext_iff]; omega
  · simp only [reduceCtorEq, false_iff]; omega

theorem satOfPrn_eq_none {prn : Prn} : satOfPrn prn = none ↔ ¬ (1 ≤ prn.toNat ∧ prn.toNat ≤ 32) := by
  unfold satOfPrn
  split <;> simp_all

theorem chipOfIdx_eq_some {idx : ChipIdx} {i : Fin 1023} : chipOfIdx idx = some i ↔ idx.toNat = i.val := by
  unfold chipOfIdx
  split
  · simp only [Option.some.injEq, Fin.ext_iff]
  · simp only [reduceCtorEq, false_iff]; omega

theorem chipOfIdx_eq_none {idx : ChipIdx} : chipOfIdx idx = none ↔ 1022 < idx.toNat := by
  unfold chipOfIdx
  split <;> simp_all

/-- An entry that passes the check has an output-tap mask that is not empty. -/
theorem entryMask_ne_zero {e : TapEntry} (h : checkEntry e = none) : entryMask e ≠ 0 := by
  revert e; decide

/-- A fault code's number is one of 1..8. -/
theorem faultBits_range (c : FaultCode) : 1 ≤ c.bits.toNat ∧ c.bits.toNat ≤ 8 := by
  cases c <;> decide

/-! ### CODE -/

theorem codeRead_append (m m' : CodeMemory) (b : Nat) :
    codeRead (m ++ m') b = (codeRead m b).or (codeRead m' b) := by
  induction m with
  | nil => simp [codeRead]
  | cons c m ih => obtain ⟨a, v⟩ := c; simp only [List.cons_append, codeRead]; split <;> simp [ih]

theorem codeRead_filter_of_pos (p : Nat → Bool) (m : CodeMemory) {b : Nat} (hb : p b = true) :
    codeRead (m.filter fun c => p c.1) b = codeRead m b := by
  induction m with
  | nil => rfl
  | cons c m ih =>
    obtain ⟨a, v⟩ := c
    by_cases ha : p a = true
    · simp only [List.filter_cons, ha, if_true, codeRead, ih]
    · have : a ≠ b := fun h => ha (h ▸ hb)
      simp [ha, codeRead, ih, this]

theorem codeRead_filter_of_neg (p : Nat → Bool) (m : CodeMemory) {b : Nat} (hb : p b = false) :
    codeRead (m.filter fun c => p c.1) b = none := by
  induction m with
  | nil => rfl
  | cons c m ih =>
    obtain ⟨a, v⟩ := c
    by_cases ha : p a = true
    · have : a ≠ b := fun h => by simp [h, hb] at ha
      simp [ha, codeRead, ih, this]
    · simp [ha, ih]

theorem codeRead_codeRun (vs : List Chip) : ∀ a b : Nat,
    codeRead (codeRun a vs) b = if a ≤ b then vs[b - a]? else none := by
  induction vs with
  | nil => intro a b; simp [codeRun, codeRead]
  | cons v vs ih =>
    intro a b
    simp only [codeRun, codeRead, ih]
    by_cases h : a = b
    · subst h; simp
    · by_cases h2 : a ≤ b
      · have h3 : a + 1 ≤ b := by omega
        obtain ⟨d, rfl⟩ : ∃ d, b = a + 1 + d := ⟨b - (a + 1), by omega⟩
        have h4 : a + 1 + d - a = d + 1 := by omega
        simp [h, h2, h3, h4]
      · have h3 : ¬ a + 1 ≤ b := by omega
        simp [h, h2, h3]

/-- Reading after a run of writes: inside the run the chip written, elsewhere what was there. -/
theorem codeRead_codeWriteRun (m : CodeMemory) (a b : Nat) (vs : List Chip) :
    codeRead (codeWriteRun m a vs) b =
      if a ≤ b ∧ b < a + vs.length then vs[b - a]? else codeRead m b := by
  have lo := codeRead_filter_of_pos (fun x => decide (x < a)) m (b := b)
  have lo' := codeRead_filter_of_neg (fun x => decide (x < a)) m (b := b)
  have hi := codeRead_filter_of_pos (fun x => decide (a + vs.length ≤ x)) m (b := b)
  have hi' := codeRead_filter_of_neg (fun x => decide (a + vs.length ≤ x)) m (b := b)
  simp only [decide_eq_true_eq, decide_eq_false_iff_not] at lo lo' hi hi'
  simp only [codeWriteRun, codeRead_append, codeRead_codeRun]
  by_cases h1 : b < a
  · have h2 : ¬ a ≤ b := by omega
    simp [lo h1, hi' (by omega), h2]
  · by_cases h3 : b < a + vs.length
    · have h2 : a ≤ b := by omega
      simp [lo' h1, hi' (by omega), h2, h3, List.getElem?_eq_getElem (show b - a < vs.length by omega)]
    · have h2 : a ≤ b := by omega
      simp [lo' h1, hi (by omega), h2, h3, List.getElem?_eq_none (show vs.length ≤ b - a by omega)]

theorem codeRead_codeWrite_same (m : CodeMemory) (a : Nat) (v : Chip) : codeRead (codeWrite m a v) a = some v := by
  simp [codeWrite, codeRead_codeWriteRun]

theorem codeRead_codeWrite_other (m : CodeMemory) {a b : Nat} (v : Chip) (h : b ≠ a) :
    codeRead (codeWrite m a v) b = codeRead m b := by
  have : ¬ (a ≤ b ∧ b < a + [v].length) := by simp only [List.length_singleton]; omega
  rw [codeWrite, codeRead_codeWriteRun, if_neg this]

/-- The canonical form in terms of Mathlib's `Pairwise`. -/
theorem codeRising_iff (m : CodeMemory) : ∀ low : Nat,
    codeRising low m = true ↔ (∀ c ∈ m, low ≤ c.1) ∧ m.Pairwise (fun c d => c.1 < d.1) := by
  induction m with
  | nil => simp [codeRising]
  | cons c m ih =>
    intro low
    obtain ⟨a, v⟩ := c
    simp only [codeRising, Bool.and_eq_true, decide_eq_true_eq, ih, List.mem_cons, List.pairwise_cons,
      forall_eq_or_imp]
    constructor
    · rintro ⟨h1, h2, h3⟩
      exact ⟨⟨h1, fun d hd => by have := h2 d hd; omega⟩, fun d hd => by have := h2 d hd; omega, h3⟩
    · rintro ⟨⟨h1, h2⟩, h3, h4⟩
      exact ⟨h1, fun d hd => by have := h3 d hd; omega, h4⟩

theorem codeWf_iff (m : CodeMemory) :
    codeWf m = true ↔ m.Pairwise (fun c d => c.1 < d.1) ∧ ∀ c ∈ m, c.1 < 32736 := by
  simp [codeWf, codeRising_iff]

theorem mem_codeRun (vs : List Chip) : ∀ (a : Nat) (c : CodeCell), c ∈ codeRun a vs → a ≤ c.1 ∧ c.1 < a + vs.length := by
  induction vs with
  | nil => simp [codeRun]
  | cons v vs ih =>
    intro a c hc
    simp only [codeRun, List.mem_cons] at hc
    rcases hc with rfl | hc
    · simp
    · have := ih _ _ hc; simp only [List.length_cons]; omega

theorem codeRun_pairwise (vs : List Chip) : ∀ a : Nat, (codeRun a vs).Pairwise (fun c d => c.1 < d.1) := by
  induction vs with
  | nil => simp [codeRun]
  | cons v vs ih =>
    intro a
    simp only [codeRun, List.pairwise_cons]
    exact ⟨fun d hd => by have := mem_codeRun _ _ _ hd; omega, ih _⟩

/-- A run of writes inside the address space keeps the canonical form. -/
theorem codeWf_codeWriteRun {m : CodeMemory} {a : Nat} {vs : List Chip}
    (h : codeWf m = true) (hb : a + vs.length ≤ 32736) : codeWf (codeWriteRun m a vs) = true := by
  rw [codeWf_iff] at h ⊢
  obtain ⟨hp, hr⟩ := h
  have hlo : ∀ c ∈ m.filter (fun c => decide (c.1 < a)), c.1 < a ∧ c ∈ m := by
    intro c hc; simp at hc; exact ⟨hc.2, hc.1⟩
  have hhi : ∀ c ∈ m.filter (fun c => decide (a + vs.length ≤ c.1)), a + vs.length ≤ c.1 ∧ c ∈ m := by
    intro c hc; simp at hc; exact ⟨hc.2, hc.1⟩
  constructor
  · simp only [codeWriteRun, List.pairwise_append]
    refine ⟨⟨hp.filter _, codeRun_pairwise _ _, fun c hc d hd => ?_⟩, hp.filter _, fun c hc d hd => ?_⟩
    · have := hlo c hc; have := mem_codeRun _ _ _ hd; omega
    · have hd := hhi d hd
      rcases List.mem_append.mp hc with hc | hc
      · have := hlo c hc; omega
      · have := mem_codeRun _ _ _ hc; omega
  · intro c hc
    simp only [codeWriteRun, List.mem_append] at hc
    rcases hc with (hc | hc) | hc
    · exact hr c (hlo c hc).2
    · have := mem_codeRun _ _ _ hc; omega
    · exact hr c (hhi c hc).2

theorem codeWf_codeWrite {m : CodeMemory} {a : Nat} (v : Chip) (h : codeWf m = true) (ha : a < 32736) :
    codeWf (codeWrite m a v) = true := codeWf_codeWriteRun h (by simpa using ha)

theorem codeWf_nil : codeWf [] = true := rfl

/-- A run written just past every listed address is appended. -/
theorem codeWriteRun_of_all_below {m : CodeMemory} {a : Nat} (vs : List Chip) (h : ∀ c ∈ m, c.1 < a) :
    codeWriteRun m a vs = m ++ codeRun a vs := by
  have h1 : m.filter (fun c => decide (c.1 < a)) = m := List.filter_eq_self.mpr (by simpa using h)
  have h2 : m.filter (fun c => decide (a + vs.length ≤ c.1)) = [] := by
    rw [List.filter_eq_nil_iff]; intro c hc; have := h c hc; simp; omega
  simp [codeWriteRun, h1, h2]

theorem chipRun_length (n : Nat) : ∀ (b1 b2 : Stages) (out : TapMask), (chipRun n b1 b2 out).length = n := by
  induction n with
  | zero => intros; rfl
  | succ n ih => intros; simp [chipRun, ih]

/-- Shifting is from the inside as well as from the outside. -/
theorem shiftN_shift (fb : TapMask) (n : Nat) (s : Stages) : shiftN fb n (shift fb s) = shiftN fb (n + 1) s := by
  induction n with
  | zero => rfl
  | succ n ih => exact congrArg (shift fb) ih

theorem shiftN_add (fb : TapMask) (m n : Nat) (s : Stages) : shiftN fb m (shiftN fb n s) = shiftN fb (m + n) s := by
  induction m with
  | zero => simp [shiftN]
  | succ m ih => rw [shiftN, ih, Nat.add_right_comm, shiftN]

/-- The chip number `j` of a run is that of the registers after `j` shifts. -/
theorem chipRun_getElem? (n : Nat) : ∀ (b1 b2 : Stages) (out : TapMask) (j : Nat), j < n →
    (chipRun n b1 b2 out)[j]? = some (chipOf (shiftN g1FbTaps j b1) (shiftN g2FbTaps j b2) out) := by
  induction n with
  | zero => intro _ _ _ j h; omega
  | succ n ih =>
    intro b1 b2 out j h
    cases j with
    | zero => rfl
    | succ j => simp only [chipRun, List.getElem?_cons_succ, ih _ _ _ j (by omega), shiftN_shift]

end Sys2Proof.Machine
end

