-- ==== Sys2Proof/Laws/Step.lean ====
section
/-! SUPPORT. What the commands, the builder and a step can do, said once: later proofs cite these and unfold nothing. -/

namespace Sys2Proof.Machine

/-! ### Commands -/

theorem execRomRead_cases {prn : Prn} {idx : ChipIdx} {s t : State} (h : execRomRead prn idx s = .next t) :
    (∃ c p, t = raiseFault c p s) ∨
    (∃ (sat : Fin 32) (i : Fin 1023), prn.toNat = sat.val + 1 ∧ idx.toNat = i.val ∧
      ((s.romState = .uninit ∧ t = hold (startBuild s)) ∨ (s.romState = .building ∧ t = hold s) ∨
       (s.romState = .built ∧ t = respond ((codeChip s (codeAddr sat i)).setWidth 32) s))) := by
  unfold execRomRead at h
  split at h
  · cases h; exact .inl ⟨_, _, rfl⟩
  · rename_i sat hs
    split at h
    · cases h; exact .inl ⟨_, _, rfl⟩
    · rename_i i hi
      have hs := satOfPrn_eq_some.mp hs
      have hi := chipOfIdx_eq_some.mp hi
      split at h <;> cases h
      · exact .inl ⟨_, _, rfl⟩
      · exact .inr ⟨sat, i, hs, hi, .inl ⟨‹_›, rfl⟩⟩
      · exact .inr ⟨sat, i, hs, hi, .inr (.inl ⟨‹_›, rfl⟩)⟩
      · exact .inr ⟨sat, i, hs, hi, .inr (.inr ⟨‹_›, rfl⟩)⟩

/-- Everything a host command can do: fault, hold, or answer, and then with which change of registers. -/
theorem exec_cmd_cases {i : Instr} {s t : State} (hf : i.format = .cmd32) (h : exec i s = .next t) :
    (∃ c p, t = raiseFault c p s) ∨
    (∃ d, t = respond d s ∧ i ≠ .caStep ∧ (∀ prn, i ≠ .caSel prn) ∧ i ≠ .romBuild) ∨
    (∃ prn sat, i = .caSel prn ∧ prn.toNat = sat.val + 1 ∧ checkEntry (tapEntry s sat) = none ∧
      t = respond 0 (selectSat prn (tapEntry s sat) s)) ∨
    (i = .caStep ∧ s.selPrn ≠ 0 ∧
      t = respond ((s.chipCnt ++ 0#15 ++ chipOf s.g1 s.g2 s.g2Out).setWidth 32) (stepCaGen s)) ∨
    (i = .romBuild ∧ t = respond ((startBuild s).romState.bits.setWidth 32) (startBuild s)) ∨
    (∃ prn idx, i = .romRead prn idx ∧ (∃ sat : Fin 32, prn.toNat = sat.val + 1) ∧ idx.toNat ≤ 1022 ∧
      ((s.romState = .uninit ∧ t = hold (startBuild s)) ∨ (s.romState = .building ∧ t = hold s))) := by
  cases i <;> simp only [Instr.format, reduceCtorEq] at hf <;> simp only [exec] at h
  case nop => cases h; exact .inr (.inl ⟨_, rfl, by simp⟩)
  case status => cases h; exact .inr (.inl ⟨_, rfl, by simp⟩)
  case caRdst => cases h; exact .inr (.inl ⟨_, rfl, by simp⟩)
  case romBuild => cases h; exact .inr (.inr (.inr (.inr (.inl ⟨rfl, rfl⟩))))
  case caSel prn =>
    unfold execCaSel at h
    split at h
    · cases h; exact .inl ⟨_, _, rfl⟩
    · rename_i sat hs
      split at h <;> cases h
      · exact .inl ⟨_, _, rfl⟩
      · exact .inr (.inr (.inl ⟨prn, sat, rfl, satOfPrn_eq_some.mp hs, ‹_›, rfl⟩))
  case caStep =>
    unfold execCaStep at h
    split at h <;> cases h
    · exact .inl ⟨_, _, rfl⟩
    · exact .inr (.inr (.inr (.inl ⟨rfl, ‹_›, rfl⟩)))
  case tapRead prn =>
    unfold execTapRead at h
    split at h <;> cases h
    · exact .inl ⟨_, _, rfl⟩
    · exact .inr (.inl ⟨_, rfl, by simp⟩)
  case romRead prn idx =>
    rcases execRomRead_cases h with hf | ⟨sat, i, hs, hi, hu | hb | ⟨-, rfl⟩⟩
    · exact .inl hf
    · exact .inr (.inr (.inr (.inr (.inr ⟨prn, idx, rfl, ⟨sat, hs⟩, by omega, .inl hu⟩))))
    · exact .inr (.inr (.inr (.inr (.inr ⟨prn, idx, rfl, ⟨sat, hs⟩, by omega, .inr hb⟩))))
    · exact .inr (.inl ⟨_, rfl, by simp⟩)

/-- A host command always answers a next state. -/
theorem exec_cmd_next (i : Instr) (s : State) (hf : i.format = .cmd32) : ∃ t, exec i s = .next t := by
  cases i <;> simp only [Instr.format, reduceCtorEq] at hf <;> simp only [exec]
  case nop => exact ⟨_, rfl⟩
  case status => exact ⟨_, rfl⟩
  case caRdst => exact ⟨_, rfl⟩
  case romBuild => exact ⟨_, rfl⟩
  case caSel => unfold execCaSel; (repeat' split) <;> exact ⟨_, rfl⟩
  case caStep => unfold execCaStep; split <;> exact ⟨_, rfl⟩
  case tapRead => unfold execTapRead; split <;> exact ⟨_, rfl⟩
  case romRead => unfold execRomRead; (repeat' split) <;> exact ⟨_, rfl⟩

/-- A control of a standalone instance that answers a next state changed that instance alone. -/
theorem exec_ctl_cases {i : Instr} {s t : State} (hf : i.format = .lfsrCtl) (h : exec i s = .next t) :
    ∃ u, s.lfsrs[s.lfsrAt]? = some u ∧ u.outTaps ≠ 0 ∧ u.fbTaps ≠ 0 ∧
      ∃ v : LfsrUnit, v.outTaps = u.outTaps ∧ v.fbTaps = u.fbTaps ∧
        t = { s with lfsrs := s.lfsrs.set s.lfsrAt v } := by
  have key : ∀ f : LfsrUnit → LfsrUnit, (∀ u, (f u).outTaps = u.outTaps ∧ (f u).fbTaps = u.fbTaps) →
      onUnit f s = .next t → ∃ u, s.lfsrs[s.lfsrAt]? = some u ∧ u.outTaps ≠ 0 ∧ u.fbTaps ≠ 0 ∧
      ∃ v : LfsrUnit, v.outTaps = u.outTaps ∧ v.fbTaps = u.fbTaps ∧
        t = { s with lfsrs := s.lfsrs.set s.lfsrAt v } := by
    intro f hfu h
    unfold onUnit at h
    split at h
    · cases h
    · split at h <;> cases h
      rename_i u hu hne
      rw [not_or] at hne
      exact ⟨u, hu, hne.1, hne.2, f u, (hfu u).1, (hfu u).2, rfl⟩
  cases i <;> simp only [Instr.format, reduceCtorEq] at hf <;> simp only [exec] at h
  · exact key LfsrUnit.held (fun _ => ⟨rfl, rfl⟩) h
  · exact key LfsrUnit.stepped (fun _ => ⟨rfl, rfl⟩) h
  · exact key LfsrUnit.seeded (fun _ => ⟨rfl, rfl⟩) h

/-- A command word decodes to no control, and a control value to no command. -/
theorem decode_cmd_format {w : Word} {i : Instr} (h : decode (.cmd32 w) = .ok i) : i.format = .cmd32 := by
  simp only [decode, decodeCmd, matchRow] at h
  split at h <;> (first | (split at h <;> cases h <;> rfl) | cases h)

theorem decode_ctl_format {c : Ctl} {i : Instr} (h : decode (.lfsrCtl c) = .ok i) : i.format = .lfsrCtl := by
  simp only [decode, decodeCtl] at h
  split at h <;> cases h <;> rfl

/-! ### The builder -/

/-- Everything one move of the builder can do. -/
theorem builderMove_cases (n : Nat) (s : State) :
    (s.romState ≠ .building ∧ builderMove n s = s) ∨
    (s.romState = .building ∧
      ((∃ k c, s.cursor = .check k ∧ checkEntry (tapEntry s k) = some c ∧
          builderMove n s = { latch c (prnOfSat k) s with romState := .failed }) ∨
       (∃ k, s.cursor = .check k ∧ checkEntry (tapEntry s k) = none ∧
          builderMove n s = { s with cursor := afterSat k .check (.construct 0) }) ∨
       (∃ k, s.cursor = .construct k ∧ builderMove n s = builderConstruct k s) ∨
       (∃ k i, s.cursor = .chip k i ∧ builderMove n s = builderChips k i (min (n + 1) (1023 - i.val)) s) ∨
       (s.cursor = .publish ∧ builderMove n s = { s with romState := .built }))) := by
  unfold builderMove
  split
  · refine .inr ⟨‹_›, ?_⟩
    split
    · rename_i k hk
      unfold builderCheck
      split
      · exact .inl ⟨k, _, hk, ‹_›, rfl⟩
      · exact .inr (.inl ⟨k, hk, ‹_›, rfl⟩)
    · exact .inr (.inr (.inl ⟨_, ‹_›, rfl⟩))
    · exact .inr (.inr (.inr (.inl ⟨_, _, ‹_›, rfl⟩)))
    · exact .inr (.inr (.inr (.inr ⟨‹_›, rfl⟩)))
  · exact .inl ⟨by simp_all, rfl⟩
  · exact .inl ⟨by simp_all, rfl⟩
  · exact .inl ⟨by simp_all, rfl⟩

/-- Where the cursor goes after the last satellite's chips, or before. -/
theorem afterSat_cases (k : Fin 32) (f : Fin 32 → Cursor) (c : Cursor) :
    (∃ l : Fin 32, l.val = k.val + 1 ∧ afterSat k f c = f l) ∨ (k.val = 31 ∧ afterSat k f c = c) := by
  unfold afterSat
  split
  · exact .inl ⟨_, rfl, rfl⟩
  · exact .inr ⟨by omega, rfl⟩

/-- A property each move of the builder keeps holds after any moves of the builder. -/
theorem builderMoves_keeps {P : State → Prop} (move : ∀ n s, P s → P (builderMove n s)) (moves : List Nat) :
    ∀ {s : State}, P s → P (builderMoves moves s) := by
  induction moves with
  | nil => exact id
  | cons n rest ih => exact fun h => ih (move n _ h)

/-- Where the build goes on after chips of a satellite: in it, at the next satellite, or at the publication. -/
theorem afterChips_eq (k : Fin 32) (i : Fin 1023) (n : Nat) (h : i.val + n ≤ 1023) :
    (∃ j : Fin 1023, j.val = i.val + n ∧ afterChips k i n = .chip k j) ∨
    (i.val + n = 1023 ∧ ((∃ l : Fin 32, l.val = k.val + 1 ∧ afterChips k i n = .construct l) ∨
      (k.val = 31 ∧ afterChips k i n = .publish))) := by
  unfold afterChips
  split
  · exact .inl ⟨_, rfl, rfl⟩
  · exact .inr ⟨by omega, afterSat_cases k .construct .publish⟩

/-- How many moves the rest of a build takes at most: none outside BUILDING. -/
def movesLeft (s : State) : Nat :=
  match s.romState, s.cursor with
  | .building, .check k => (32 - k.val) + 32 * 1024 + 1
  | .building, .construct k => (32 - k.val) * 1024 + 1
  | .building, .chip k i => (31 - k.val) * 1024 + 1 + (1023 - i.val)
  | .building, .publish => 1
  | .uninit, _ => 0
  | .built, _ => 0
  | .failed, _ => 0

theorem movesLeft_le (s : State) : movesLeft s ≤ 32801 := by
  unfold movesLeft
  split <;> omega

theorem movesLeft_pos {s : State} (h : s.romState = .building) : 0 < movesLeft s := by
  unfold movesLeft
  split <;> simp_all

/-- Every move in BUILDING brings the end of the build nearer. -/
theorem builderMove_movesLeft (n : Nat) {s : State} (h : s.romState = .building) :
    movesLeft (builderMove n s) < movesLeft s := by
  rcases builderMove_cases n s with
    ⟨h', e⟩ | ⟨hb, ⟨k, c, hc, he, e⟩ | ⟨k, hc, he, e⟩ | ⟨k, hc, e⟩ | ⟨k, i, hc, e⟩ | ⟨hc, e⟩⟩ <;> rw [e]
  · exact absurd h h'
  · simp [movesLeft, hb, hc]
  · rcases afterSat_cases k .check (.construct 0) with ⟨l, hl, e2⟩ | ⟨hl, e2⟩
    · simp [movesLeft, hb, hc, e2]
      omega
    · simp [movesLeft, hb, hc, e2]
  · simp [movesLeft, hb, hc]
    omega
  · rcases afterChips_eq k i (min (n + 1) (1023 - i.val)) (by omega) with
      ⟨j, hj, e3⟩ | ⟨hl, ⟨l, hl2, e3⟩ | ⟨hl2, e3⟩⟩ <;> simp [movesLeft, hb, hc, e3] <;> omega
  · simp [movesLeft, hb, hc]

/-- The builder never goes back to UNINIT. -/
theorem builderMove_not_uninit (n : Nat) {s : State} (h : s.romState ≠ .uninit) :
    (builderMove n s).romState ≠ .uninit := by
  rcases builderMove_cases n s with
    ⟨-, e⟩ | ⟨-, ⟨k, c, -, -, e⟩ | ⟨k, -, -, e⟩ | ⟨k, -, e⟩ | ⟨k, i, -, e⟩ | ⟨-, e⟩⟩ <;> rw [e]
  all_goals first | exact h | simp

/-! ### A step -/

/-- What presenting the next command leaves: everything, or all but the port, the queue and the response. -/
theorem presentNext_cases (s : State) :
    (presentNext s = s ∧ (s.port ≠ none ∨ s.hostQueue = [])) ∨
    ∃ w ws, s.port = none ∧ s.hostQueue = w :: ws ∧
      presentNext s = { s with port := some w, hostQueue := ws, rsp := none } := by
  unfold presentNext
  split
  · exact .inr ⟨_, _, ‹_›, ‹_›, rfl⟩
  · rename_i h
    refine .inl ⟨rfl, ?_⟩
    by_contra hc
    rw [not_or, not_not] at hc
    obtain ⟨h1, h2⟩ := hc
    cases hq : s.hostQueue with
    | nil => exact h2 hq
    | cons w ws => exact h w ws h1 hq

/-! ### presentNext: every field but the port, the queue and the response stays -/

@[simp] theorem presentNext_g1 (s : State) : (presentNext s).g1 = s.g1 := by unfold presentNext; split <;> rfl
@[simp] theorem presentNext_g2 (s : State) : (presentNext s).g2 = s.g2 := by unfold presentNext; split <;> rfl
@[simp] theorem presentNext_g2Out (s : State) : (presentNext s).g2Out = s.g2Out := by unfold presentNext; split <;> rfl
@[simp] theorem presentNext_selPrn (s : State) : (presentNext s).selPrn = s.selPrn := by unfold presentNext; split <;> rfl
@[simp] theorem presentNext_chipCnt (s : State) : (presentNext s).chipCnt = s.chipCnt := by unfold presentNext; split <;> rfl
@[simp] theorem presentNext_romState (s : State) : (presentNext s).romState = s.romState := by unfold presentNext; split <;> rfl
@[simp] theorem presentNext_code (s : State) : (presentNext s).code = s.code := by unfold presentNext; split <;> rfl
@[simp] theorem presentNext_err (s : State) : (presentNext s).err = s.err := by unfold presentNext; split <;> rfl
@[simp] theorem presentNext_errCode (s : State) : (presentNext s).errCode = s.errCode := by unfold presentNext; split <;> rfl
@[simp] theorem presentNext_errPrn (s : State) : (presentNext s).errPrn = s.errPrn := by unfold presentNext; split <;> rfl
@[simp] theorem presentNext_b1 (s : State) : (presentNext s).b1 = s.b1 := by unfold presentNext; split <;> rfl
@[simp] theorem presentNext_b2 (s : State) : (presentNext s).b2 = s.b2 := by unfold presentNext; split <;> rfl
@[simp] theorem presentNext_b2Out (s : State) : (presentNext s).b2Out = s.b2Out := by unfold presentNext; split <;> rfl
@[simp] theorem presentNext_cursor (s : State) : (presentNext s).cursor = s.cursor := by unfold presentNext; split <;> rfl
@[simp] theorem presentNext_lfsrs (s : State) : (presentNext s).lfsrs = s.lfsrs := by unfold presentNext; split <;> rfl
@[simp] theorem presentNext_cfg (s : State) : (presentNext s).cfg = s.cfg := by unfold presentNext; split <;> rfl
@[simp] theorem presentNext_eagerDue (s : State) : (presentNext s).eagerDue = s.eagerDue := by unfold presentNext; split <;> rfl
@[simp] theorem presentNext_lfsrAt (s : State) : (presentNext s).lfsrAt = s.lfsrAt := by unfold presentNext; split <;> rfl
@[simp] theorem presentNext_turns (s : State) : (presentNext s).turns = s.turns := by unfold presentNext; split <;> rfl

/-- Everything the host's turn can do. -/
theorem hostTurn_cases {s t : State} (h : hostTurn s = .next t) :
    (s.port = none ∧ s.hostQueue = [] ∧ t = s) ∨
    ∃ w, (presentNext s).port = some w ∧
      ((∃ i, decode (.cmd32 w) = .ok i ∧ i.format = .cmd32 ∧ exec i (presentNext s) = .next t) ∨
       ((∀ i, decode (.cmd32 w) ≠ .ok i) ∧ t = raiseFault .illegalCmd 0 (presentNext s))) := by
  unfold hostTurn at h
  split at h
  · rename_i w hw
    refine .inr ⟨w, hw, ?_⟩
    unfold runCommand at h
    split at h
    · exact .inl ⟨_, ‹_›, decode_cmd_format ‹_›, h⟩
    · rename_i e he
      cases h
      exact .inr ⟨by simp [he], rfl⟩
  · rename_i hp
    cases h
    rcases presentNext_cases s with ⟨hs, h1⟩ | ⟨w, ws, -, -, hs⟩
    · rw [hs] at hp
      exact .inl ⟨hp, h1.resolve_left (fun hn => hn hp), rfl⟩
    · rw [hs] at hp; cases hp

/-- The host's turn never stops. -/
theorem hostTurn_next (s : State) : ∃ t, hostTurn s = .next t := by
  unfold hostTurn
  split
  · unfold runCommand
    split
    · exact exec_cmd_next _ _ (decode_cmd_format ‹_›)
    · exact ⟨_, rfl⟩
  · exact ⟨_, rfl⟩

/-- Everything a clock of a standalone instance can do. -/
theorem lfsrTurn_cases {k : Nat} {rst : Bool} {c : Ctl} {s t : State} (h : lfsrTurn k rst c s = .next t) :
    ∃ i, i.format = .lfsrCtl ∧ (rst = true → i = .lfsrInit) ∧ (rst = false → decode (.lfsrCtl c) = .ok i) ∧
      exec i { s with lfsrAt := k } = .next t := by
  unfold lfsrTurn at h
  split at h
  · exact ⟨.lfsrInit, rfl, fun _ => rfl, by simp_all, h⟩
  · split at h
    · exact ⟨_, decode_ctl_format ‹_›, by simp_all, fun _ => ‹_›, h⟩
    · cases h

/-- Everything a step can do. -/
theorem step_cases {s t : State} (h : nextMove s = .next t) :
    (s.eagerDue = true ∧ s.turns.head? ≠ some .rst ∧ t = eagerStart s) ∨
    (s.turns = [] ∧ t = s) ∨
    ∃ u ts, s.turns = u :: ts ∧ runTurn u { s with turns := ts } = .next t := by
  unfold nextMove at h
  split at h
  · rename_i he
    cases h
    simp only [eagerFirst, Bool.and_eq_true, bne_iff_ne, ne_eq] at he
    exact .inl ⟨he.1, he.2, rfl⟩
  · split at h
    · cases h; exact .inr (.inl ⟨‹_›, rfl⟩)
    · exact .inr (.inr ⟨_, _, ‹_›, h⟩)

/-- A property holds after a step if it held before and each kind of move keeps it (a reset only where the
next turn is one): the one case split of a step. -/
theorem nextMove_keeps {P : State → Prop} {s t : State}
    (turns : ∀ s ts, P s → P { s with turns := ts })
    (unit : ∀ s k us, P s → P { s with lfsrAt := k, lfsrs := us })
    (present : ∀ s w ws, P s → P { s with port := some w, hostQueue := ws, rsp := none })
    (command : ∀ i s t, i.format = .cmd32 → exec i s = .next t → P s → P t)
    (illegal : ∀ s, P s → P (raiseFault .illegalCmd 0 s))
    (build : ∀ n s, P s → P (builderMove n s))
    (eager : ∀ s, P s → P (eagerStart s))
    (reset : s.turns.head? = some .rst → ∀ s', P s' → P (resetBlock s'))
    (h : nextMove s = .next t) (hs : P s) : P t := by
  rcases step_cases h with ⟨-, -, rfl⟩ | ⟨-, rfl⟩ | ⟨u, ts, hu, h⟩
  · exact eager s hs
  · exact hs
  · have hs' := turns s ts hs
    generalize { s with turns := ts } = s' at h hs'
    cases u with
    | host =>
      have hp : P (presentNext s') := by
        rcases presentNext_cases s' with ⟨he, -⟩ | ⟨w, ws, -, -, he⟩ <;> rw [he]
        · exact hs'
        · exact present _ _ _ hs'
      rcases hostTurn_cases h with ⟨-, -, rfl⟩ | ⟨w, -, ⟨i, -, hf, he⟩ | ⟨-, rfl⟩⟩
      · exact hs'
      · exact command i _ _ hf he hp
      · exact illegal _ hp
    | builder first more =>
      simp only [runTurn, Host.Outcome.next.injEq] at h
      subst h
      exact builderMoves_keeps build (first :: more) hs'
    | lfsr k rst c =>
      obtain ⟨i, hf, -, -, he⟩ := lfsrTurn_cases h
      obtain ⟨u, -, -, -, v, -, -, rfl⟩ := exec_ctl_cases hf he
      exact unit s' k _ hs'
    | rst =>
      simp only [runTurn, Host.Outcome.next.injEq] at h
      exact h ▸ reset (by simp [hu]) _ hs'

end Sys2Proof.Machine
end

