-- ==== Sys2Proof/Laws/Fault.lean ====
section
/-! SUPPORT. Raising a fault in the terms of the claims, an operation on a built instance, a step with its turn
known, and a run. -/

namespace Sys2Proof.Machine

open Sys2Proof.Safety

/-- Raising a fault leaves what the claims call `afterFault` (60_exceptions.md R170). -/
theorem raiseFault_eq (c : FaultCode) (p : BitVec 6) (s : State) : raiseFault c p s = afterFault c.bits p s := by
  unfold raiseFault latch afterFault
  cases h : s.err <;> simp [h]

/-- An operation on an instance whose tap sets are not empty completes. -/
theorem onUnit_built {f : LfsrUnit → LfsrUnit} {s : State} {u : LfsrUnit} (h : s.lfsrs[s.lfsrAt]? = some u)
    (ho : u.outTaps ≠ 0) (hf : u.fbTaps ≠ 0) :
    onUnit f s = .next { s with lfsrs := s.lfsrs.set s.lfsrAt (f u) } := by
  unfold onUnit
  rw [h]
  simp only
  rw [if_neg (by simp only [not_or]; exact ⟨ho, hf⟩)]

/-- With no eager transition due, a step is the next turn. -/
theorem step_of_turn {s : State} {u : Turn} {ts : List Turn} (he : s.eagerDue = false) (h : s.turns = u :: ts) :
    step s = runTurn u { s with turns := ts } := by
  simp [step, nextMove, eagerFirst, he, h]

/-- A builder's turn takes its moves, one or more (42_code_rom.md R141). -/
theorem builderStep_cons (first : Nat) (more : List Nat) (s : State) :
    builderStep first more s = builderMoves more (builderMove first s) := rfl

/-- The eager start is the next step wherever it is due and no reset comes first (42_code_rom.md R148). -/
theorem step_of_eager {s : State} (he : s.eagerDue = true) (h : ¬ ResetNext s) : step s = .next (eagerStart s) := by
  have hf : eagerFirst s = true := by simpa [eagerFirst, he, ResetNext] using h
  simp [step, nextMove, hf]

/-- A run goes on from the state after its first step. -/
theorem run_succ {s t : State} (h : step s = .next t) (n : Nat) :
    Host.Core.run Sys2Proof.core (n + 1) s = Host.Core.run Sys2Proof.core n t := by
  have h' : Sys2Proof.core.step s = .next t := h
  simp only [Host.Core.run, h']

/-- Each stage of a shifted register is the one below it before the shift (40_lfsr.md R104). -/
theorem stage_shift (fb : TapMask) (s : Stages) {k : Nat} (h2 : 2 ≤ k) (h10 : k ≤ 10) :
    stage (shift fb s) k = stage s (k - 1) := by
  have h4 : k - 1 < 10 := by omega
  have h5 : k - 1 ≠ 0 := by omega
  have h7 : k - 1 - 1 < 10 := by omega
  simp only [stage, shift, BitVec.getLsbD_or, BitVec.getLsbD_shiftLeft, BitVec.getLsbD_setWidth]
  have h1 : ¬ k - 1 < 1 := by omega
  simp [h1, h4, BitVec.getLsbD_of_ge (parity s fb) (k - 1) (by omega)]

/-- The new stage 1 is the feedback (40_lfsr.md R104). -/
theorem stage_shift_one (fb : TapMask) (s : Stages) : BitVec.ofBool (stage (shift fb s) 1) = parity s fb := by
  ext i hi
  obtain rfl : i = 0 := by omega
  simp [stage, shift]

end Sys2Proof.Machine
end

