-- ==== Sys2Proof/Laws/PerInstr.lean ====
section
/-! SUPPORT. Statements for all instructions, one lemma a constructor. -/

namespace Sys2Proof.Laws.FitsRow

/-- The encoding of an instruction has the match of its own row under that row's mask (30_encoding.md R77); a control is
one of the three (R83). -/
def Statement (i : Instr) : Prop :=
  match encode i with
  | .cmd32 w => ∃ r ∈ cmdRows, r.mnemonic = i.mnemonic ∧ w &&& r.mask = r.pattern
  | .lfsrCtl c => c ≠ 0b11

theorem nop : Statement .nop := ⟨rowNop, by simp [cmdRows], rfl, by decide⟩

theorem caSel (prn : Prn) : Statement (.caSel prn) :=
  ⟨rowCaSel, by simp [cmdRows], rfl, by revert prn; decide⟩

theorem caStep : Statement .caStep := ⟨rowCaStep, by simp [cmdRows], rfl, by decide⟩

theorem caRdst (u : BitVec 1) : Statement (.caRdst u) :=
  ⟨rowCaRdst, by simp [cmdRows], rfl, by revert u; decide⟩

theorem romBuild : Statement .romBuild := ⟨rowRomBuild, by simp [cmdRows], rfl, by decide⟩

theorem romRead (prn : Prn) (idx : ChipIdx) : Statement (.romRead prn idx) :=
  ⟨rowRomRead, by simp [cmdRows], rfl, commandWord_and_mask 5 prn idx⟩

theorem tapRead (prn : Prn) : Statement (.tapRead prn) :=
  ⟨rowTapRead, by simp [cmdRows], rfl, by revert prn; decide⟩

theorem status : Statement .status := ⟨rowStatus, by simp [cmdRows], rfl, by decide⟩

theorem lfsrHold : Statement .lfsrHold := by simp [Statement, encode]

theorem lfsrStep : Statement .lfsrStep := by simp [Statement, encode]

theorem lfsrInit : Statement .lfsrInit := by simp [Statement, encode]

end Sys2Proof.Laws.FitsRow
end

