-- ==== Sys2Proof/Tests/Slice0.lean ====
section
/-! SUPPORT. Tests of the model, with expected results from 95_test_vectors.md and the examples of the rules, and a
witness for the hypotheses of each statement. -/

namespace Sys2Proof.Tests

open Sys2Proof Sys2Proof.Machine Sys2Proof.Safety

/-! ### Small states -/

/-- A default configuration with one entry of the table replaced. -/
def withEntry (sat : Fin 32) (e : TapEntry) : Config :=
  { defaultConfig with tapTable := defaultTapTable.set sat.val e }

/-- The reset state of such a configuration. -/
def resetWithEntry (sat : Fin 32) (e : TapEntry) : State := State.initial (withEntry sat e) []

/-- After `ca.sel 1` on the reset state (95_test_vectors.md C2). -/
def selected : State := { State.reset with g2Out := 0x022, selPrn := 1 }

/-- After `ca.sel 1` and ten `ca.step` (95_test_vectors.md P1). -/
def afterTen : State := { selected with g1 := 0x071, g2 := 0x0B4, chipCnt := 10 }

/-- After a complete build of the default table. -/
def built : State := { State.reset with romState := .built, code := fullTable defaultConfig }

/-- The build has just started. -/
def building : State := { State.reset with romState := .building }

/-- `TAP_TABLE[7] = 0x1B` after its build failed (95_test_vectors.md M15, P5). -/
def failed : State :=
  { resetWithEntry 6 0x1B with romState := .failed, cursor := .check 6, err := true, errCode := 7, errPrn := 7 }

/-- The reset state with `EAGER_BUILD`. -/
def eager : State := State.initial { defaultConfig with eagerBuild := true } [LfsrUnit.fresh g1OutTaps g1FbTaps]

/-- Two standalone instances with G1's tap sets. -/
def twoUnits : State :=
  State.initial defaultConfig [LfsrUnit.fresh g1OutTaps g1FbTaps, LfsrUnit.fresh g1OutTaps g1FbTaps]

/-- The reset state with one command and the host's turn to come. -/
def hostWith (w : Word) (s : State) : State := { s with hostQueue := [w], turns := [.host] }

/-- The response and the status word after an outcome. -/
def seen : Host.Outcome State Fault Refusal → Option (Option Response × Word)
  | .next s => some (s.rsp, statusWord s)
  | .fault _ => none
  | .refused _ => none

/-- A property of the next state of an outcome. -/
def nextIs (p : State → Bool) : Host.Outcome State Fault Refusal → Bool
  | .next s => p s
  | .fault _ => false
  | .refused _ => false

/-! ### Decoding: words written out from 30_encoding.md R77 and R83 -/

theorem test_decode_nop : decode (.cmd32 0b0000_000000_000000_000000_0000000000) = .ok .nop := by decide
theorem test_decode_ca_sel : decode (.cmd32 0b0001_000000_100001_000000_0000000000) = .ok (.caSel 33) := by decide
theorem test_decode_ca_step : decode (.cmd32 0b0010_000000_000000_000000_0000000000) = .ok .caStep := by decide
theorem test_decode_ca_rdst_g1 : decode (.cmd32 0b0011_000000_000000_000000_0000000000) = .ok (.caRdst 0) := by decide
theorem test_decode_ca_rdst_g2 : decode (.cmd32 0b0011_000000_000000_000000_0000000001) = .ok (.caRdst 1) := by decide
theorem test_decode_rom_build : decode (.cmd32 0b0100_000000_000000_000000_0000000000) = .ok .romBuild := by decide
theorem test_decode_rom_read : decode (.cmd32 0b0101_000000_000001_000000_1000000010) = .ok (.romRead 1 514) := by decide
theorem test_decode_tap_read : decode (.cmd32 0b0110_000000_010000_000000_0000000000) = .ok (.tapRead 16) := by decide
theorem test_decode_status : decode (.cmd32 0b0111_000000_000000_000000_0000000000) = .ok .status := by decide
theorem test_decode_lfsr_hold : decode (.lfsrCtl 0b00) = .ok .lfsrHold := by decide
theorem test_decode_lfsr_step : decode (.lfsrCtl 0b01) = .ok .lfsrStep := by decide
theorem test_decode_lfsr_init : decode (.lfsrCtl 0b10) = .ok .lfsrInit := by decide

/-- The ILLEGAL words of 95_test_vectors.md section 6. -/
theorem test_illegal_words :
    ([0x00000001, 0x10010001, 0x10400000, 0x20010000, 0x30000002, 0x50018000, 0x80000000, 0xF0000000] : List Word).all
      (fun w => match decode (.cmd32 w) with | .ok _ => false | .error _ => true) = true := by decide

/-- 95_test_vectors.md L10. -/
theorem test_control_11 : decode (.lfsrCtl 0b11) = .error .initAndStep := by decide

theorem test_table_word : decodeTableWord 32 0x502003FE = some (.romRead 32 1022) := by decide
theorem test_table_control : decodeTableWord 8 1 = some .lfsrStep ∧ decodeTableWord 2 3 = none := by decide

/-! ### Well-formedness: an ill-formed term for each check, which the check refuses -/

theorem smoke_command_on_a_control_input : Instr.wellFormedOn .lfsrCtl (.caSel 1) = false := by decide
theorem smoke_control_on_the_command_port : Instr.wellFormedOn .cmd32 .lfsrStep = false := by decide
theorem smoke_command_on_the_command_port : Instr.wellFormedOn .cmd32 (.caSel 0) = true := by decide
theorem smoke_prn_zero : Instr.legalOperands (.caSel 0) = false := by decide
theorem smoke_prn_33 : Instr.legalOperands (.tapRead 33) = false := by decide
theorem smoke_idx_1023 : Instr.legalOperands (.romRead 32 1023) = false := by decide
theorem smoke_idx_1022 : Instr.legalOperands (.romRead 32 1022) = true := by decide
theorem smoke_sel_64 : AsmStmt.wellFormed (.caSel 64) = false := by decide
theorem smoke_tap_64 : AsmStmt.wellFormed (.tapRead 64) = false := by decide
theorem smoke_read_64 : AsmStmt.wellFormed (.romRead 64 0) = false := by decide
theorem smoke_read_1024 : AsmStmt.wellFormed (.romRead 0 1024) = false := by decide
theorem smoke_run_64 : AsmStmt.wellFormed (.caRun 64 1) = false := by decide
theorem smoke_code_64 : AsmStmt.wellFormed (.caCode 64) = false := by decide
theorem smoke_word_33_bits : AsmStmt.wellFormed (.word 0x100000000) = false := by decide
theorem smoke_empty_taps : tapMaskWellFormed 0 = false := by decide
theorem smoke_table_of_31 : RawConfig.wellFormed ⟨defaultTapTable.toList.take 31, false, []⟩ = false := by decide
theorem smoke_table_of_33 : RawConfig.wellFormed ⟨0x26 :: defaultTapTable.toList, false, []⟩ = false := by decide
theorem smoke_unit_without_taps : RawConfig.wellFormed ⟨defaultTapTable.toList, false, [(0x200, 0)]⟩ = false := by decide
theorem smoke_good_config : RawConfig.wellFormed ⟨defaultTapTable.toList, true, [(0x200, 0x204)]⟩ = true := by decide

/-! ### The assembler (30_encoding.md R85, R86) -/

theorem test_assemble_text :
    assembleText "ca.sel 1 # x\n\n  rom.read 0x20, 1022\nca.rdall".toList =
      some [.cmd32 0x10010000, .cmd32 0x502003FE, .cmd32 0x30000000, .cmd32 0x30000001] := by decide +kernel

theorem test_assemble_rejects : assembleText "ca.sel 64".toList = none := by decide

/-! ### CAGEN (95_test_vectors.md section 4 and section 6) -/

/-- C2. -/
theorem test_ca_sel : nextIs (fun t => t.g1 = 0x3FF && t.g2 = 0x3FF && t.g2Out = 0x022 && t.selPrn = 1 &&
    t.chipCnt = 0 && t.rsp = some ⟨false, 0⟩) (exec (.caSel 1) afterTen) = true := by decide

/-- C8. -/
theorem test_ca_sel_33 :
    seen (exec (.caSel 33) State.reset) = some (some ⟨true, 2⟩, 0x84000024) := by decide

/-- C3. -/
theorem test_ca_step : nextIs (fun t => t.g1 = 0x3FE && t.g2 = 0x3FE && t.chipCnt = 1 &&
    t.rsp = some ⟨false, 1⟩) (exec .caStep selected) = true := by decide

/-- C5: the 1023rd step of satellite 2, whose 1022nd leaves the one predecessor of all ones. -/
theorem test_ca_step_wraps : nextIs (fun t => t.g1 = 0x3FF && t.g2 = 0x3FF && t.chipCnt = 0 &&
    t.rsp = some ⟨false, 0x03FE0000⟩)
    (exec .caStep { State.reset with g1 := 0x1FF, g2 := 0x1FF, g2Out := 0x044, selPrn := 2, chipCnt := 1022 }) = true := by
  decide

/-- C4. -/
theorem test_ca_rdst_g1 : seen (exec (.caRdst 0) afterTen) = some (some ⟨false, 0x071⟩, 0x000A0100) := by decide
theorem test_ca_rdst_g2 : seen (exec (.caRdst 1) afterTen) = some (some ⟨false, 0x0B4⟩, 0x000A0100) := by decide

/-! ### PRNROM and TAPROM (95_test_vectors.md section 5) -/

/-- M1. -/
theorem test_rom_build : seen (exec .romBuild State.reset) = some (some ⟨false, 1⟩, 1) := by decide

/-- M7. -/
theorem test_rom_read_built : seen (exec (.romRead 6 1022) built) = some (some ⟨false, 1⟩, 2) := by decide +kernel

/-- M11: BAD_PRN has priority over BAD_INDEX. -/
theorem test_rom_read_priority :
    seen (exec (.romRead 63 1023) State.reset) = some (some ⟨true, 2⟩, 0xFC000024) := by decide

/-- M12: `tap.read 32`. -/
theorem test_tap_read : seen (exec (.tapRead 32) State.reset) = some (some ⟨false, 0x49⟩, 0) := by decide

/-- The entry is returned as stored, malformed or not (R145). -/
theorem test_tap_read_malformed :
    seen (exec (.tapRead 7) (resetWithEntry 6 0x1B)) = some (some ⟨false, 0x1B⟩, 0) := by decide

/-- M15: the builder's check of satellite 7. -/
theorem test_builder_fails :
    statusWord (builderMove 0 { resetWithEntry 6 0x1B with romState := .building, cursor := .check 6 }) = 0x1C000077 := by
  decide

/-- The first ten chips of satellite 1 (section 2), as one move of ten chip steps writes them. -/
theorem test_builder_chips :
    (builderMove 9 { building with cursor := .chip 0 0, b1 := 0x3FF, b2 := 0x3FF, b2Out := 0x022 }).code =
      [(0, 1), (1, 1), (2, 0), (3, 0), (4, 1), (5, 0), (6, 0), (7, 0), (8, 0), (9, 0)] := by decide

/-- R148: a reset with `EAGER_BUILD` makes the eager start due again, and the next step takes it (P6). -/
theorem test_eager_after_reset :
    nextIs (fun t => t.eagerDue) (step { eager with eagerDue := false, romState := .built, turns := [.rst] }) = true ∧
    nextIs (fun t => t.romState = .building && !t.eagerDue) (step { eager with turns := [.lfsr 0 false 0b01] }) = true := by
  decide

/-! ### System commands (95_test_vectors.md section 6, section 7) -/

theorem test_nop : seen (exec .nop State.reset) = some (some ⟨false, 0⟩, 0) := by decide

/-- P1. -/
theorem test_status : seen (exec .status afterTen) = some (some ⟨false, 0x000A0100⟩, 0x000A0100) := by decide

/-- `.word 0x80000000` raises ILLEGAL_CMD (P3). -/
theorem test_illegal_step : seen (step (hostWith 0x80000000 State.reset)) = some (some ⟨true, 1⟩, 0x00000014) := by decide

/-! ### The LFSR primitive (95_test_vectors.md section 3) -/

/-- L8: hold at 0x071. -/
theorem test_lfsr_hold : nextIs (fun t => t.lfsrs = [⟨g1OutTaps, g1FbTaps, 0x071, none⟩])
    (exec .lfsrHold { State.reset with lfsrs := [⟨g1OutTaps, g1FbTaps, 0x071, some 1⟩] }) = true := by decide

/-- L1, step 4: from 0x3F8, out 1, state 0x3F1. -/
theorem test_lfsr_step : nextIs (fun t => t.lfsrs = [⟨g1OutTaps, g1FbTaps, 0x3F1, some 1⟩])
    (exec .lfsrStep { State.reset with lfsrs := [⟨g1OutTaps, g1FbTaps, 0x3F8, none⟩] }) = true := by decide

/-- L9: step 10 of G1 emits the OLD stage 10, 1. -/
theorem test_lfsr_snapshot : nextIs (fun t => t.lfsrs = [⟨g1OutTaps, g1FbTaps, 0x071, some 1⟩])
    (exec .lfsrStep { State.reset with lfsrs := [⟨g1OutTaps, g1FbTaps, 0x238, none⟩] }) = true := by decide

/-- L8: init gives 0x3FF. -/
theorem test_lfsr_init : nextIs (fun t => t.lfsrs = [⟨g1OutTaps, g1FbTaps, 0x3FF, none⟩])
    (exec .lfsrInit { State.reset with lfsrs := [⟨g1OutTaps, g1FbTaps, 0x071, some 1⟩] }) = true := by decide

/-- L6: a step of non-invertible feedback, from 0x36D to 0x2DB. -/
theorem test_lfsr_step_l6 : shift (tapMask [1, 2]) 0x36D = 0x2DB := by decide

/-- L4: all ten output taps on all ones give 0. -/
theorem test_parity_l4 : parity 0x3FF (tapMask [1, 2, 3, 4, 5, 6, 7, 8, 9, 10]) = 0 := by decide

/-! ### The placed word -/

theorem test_placed_command : seen (step (State.reset.withFetchWord 32 0x10010000)) = some (some ⟨false, 0⟩, 0x100) := by
  decide

theorem test_placed_control :
    nextIs (fun t => t.lfsrs = [⟨g1OutTaps, g1FbTaps, 0x3FE, some 1⟩]) (step (State.reset.withFetchWord 8 1)) = true := by
  decide

/-! ### Witnesses: states and operands that meet the hypotheses of the statements -/

theorem witness_DecodedBitsReencode :
    decode (.cmd32 0x503F03FF) = .ok (.romRead 63 1023) ∧ decode (.lfsrCtl 0b10) = .ok .lfsrInit := by decide

theorem witness_CommandIsMatchUnderMask :
    ((0x50010000#32 &&& 0xFFC0FC00#32 = 0x50000000#32) ∧ ("ROM.READ", 0x50000000#32, 0xFFC0FC00#32) ∈ opcodeMap) ∧
    (0x80000000#32 : Word).getLsbD 31 = true ∧ (0xFFFFFFFF#32 : Word).getLsbD 31 = true := by decide

theorem witness_AssemblerWords :
    (0 ≤ 63 ∧ 63 ≤ 63) ∧ (0 ≤ 1023 ∧ 1023 ≤ 1023) ∧ (2 ^ 32 - 1 < 2 ^ 32) ∧ 63 < 64 ∧ (63 < 63 ∨ 1023 < 1024) ∧
    (63 < 64 ∨ 1023 < 0) := by decide

/-- The queued command, and the held one. -/
theorem witness_HostStepRunsDecodedCommand :
    ((hostWith 0x10010000 State.reset).eagerDue = false ∧ (hostWith 0x10010000 State.reset).turns = [.host] ∧
      (hostWith 0x10010000 State.reset).port = none ∧ (hostWith 0x10010000 State.reset).hostQueue = [0x10010000] ∧
      decode (.cmd32 0x10010000) = .ok (.caSel 1)) ∧
    ({ building with port := some 0x50010000, turns := [.host] }.eagerDue = false ∧
      { building with port := some 0x50010000, turns := [.host] }.port = some 0x50010000 ∧
      decode (.cmd32 0x50010000) = .ok (.romRead 1 0)) := by decide

theorem witness_ControlStepRunsDecodedControl :
    ({ State.reset with turns := [.lfsr 0 false 0b01] }.eagerDue = false ∧ decode (.lfsrCtl 0b01) = .ok .lfsrStep) ∧
    { State.reset with turns := [.lfsr 0 true 0b11] }.eagerDue = false := by decide

/-- A word with bit 31, and a word with a 1 in a bit that must be 0. -/
theorem witness_IllegalWordRaisesIllegalCmd :
    ((0x80000000#32 : Word).getLsbD 31 = true ∧ (hostWith 0x80000000 State.reset).port = none) ∧
    ((∀ r ∈ opcodeMap, 0x00000001#32 &&& r.2.2 ≠ r.2.1) ∧ (hostWith 0x00000001 State.reset).eagerDue = false) := by decide

/-- Tables of 31 and of 33 entries; an empty set in each place; a good configuration; an instance that was never built;
control 11. -/
theorem witness_RefusedConfigurationsAndControl :
    (defaultTapTable.toList.take 31).length ≠ 32 ∧ (0x26#8 :: defaultTapTable.toList).length ≠ 32 ∧
    (defaultTapTable.toList.length = 32 ∧ ∃ m ∈ [((0 : TapMask), (1 : TapMask))], m.1 = 0 ∨ m.2 = 0) ∧
    (defaultTapTable.toList.length = 32 ∧ ∃ m ∈ [((1 : TapMask), (0 : TapMask))], m.1 = 0 ∨ m.2 = 0) ∧
    (∀ m ∈ [((0x200 : TapMask), (0x204 : TapMask))], m.1 ≠ 0 ∧ m.2 ≠ 0) ∧
    { State.reset with lfsrs := [⟨0, 1, 0x3FF, none⟩] }.lfsrs[State.reset.lfsrAt]? = some ⟨0, 1, 0x3FF, none⟩ ∧
    { State.reset with turns := [.lfsr 0 false 0b11] }.eagerDue = false :=
  ⟨by decide, by decide, by decide, by decide, by simp, rfl, rfl⟩

theorem witness_BlockDoesNotStop : ∀ k rst c ts, (hostWith 0x70000000 State.reset).turns ≠ .lfsr k rst c :: ts := by
  intro k rst c ts h
  cases h

/-- For HOLD, STEP and INIT. -/
theorem witness_LfsrControls :
    State.reset.lfsrs[State.reset.lfsrAt]? = some (LfsrUnit.fresh g1OutTaps g1FbTaps) ∧ g1OutTaps ≠ 0 ∧ g1FbTaps ≠ 0 ∧
    (2 ≤ 10 ∧ 10 ≤ 10) := by decide

theorem witness_FreshInstanceSequence :
    State.reset.lfsrs[0]? = some (LfsrUnit.fresh g1OutTaps g1FbTaps) ∧ g1OutTaps ≠ 0 ∧ g1FbTaps ≠ 0 ∧
    (LfsrUnit.fresh g1OutTaps g1FbTaps).s = 0x3FF ∧ (∀ c ∈ ([0b01, 0b00] : List Ctl), c = 0b00 ∨ c = 0b01) ∧
    { State.reset with turns := [.lfsr 0 false 0b01, .lfsr 0 false 0b00, .lfsr 0 false 0b01] }.turns =
      (([0b01, 0b00] : List Ctl).map fun c => Turn.lfsr 0 false c) ++ Turn.lfsr 0 false 0b01 :: [] := by decide

theorem witness_EqualInstancesAgree :
    twoUnits.eagerDue = false ∧ (0 : Nat) ≠ 1 ∧ twoUnits.lfsrs[0]? = some (LfsrUnit.fresh g1OutTaps g1FbTaps) ∧
    twoUnits.lfsrs[1]? = some (LfsrUnit.fresh g1OutTaps g1FbTaps) ∧ g1OutTaps ≠ 0 ∧ g1FbTaps ≠ 0 ∧
    (∀ c ∈ ([0b01, 0b10] : List Ctl), c ≠ 0b11) ∧
    { twoUnits with turns := [.lfsr 0 false 0b01, .lfsr 1 false 0b01, .lfsr 0 false 0b10, .lfsr 1 false 0b10] }.turns =
      (([0b01, 0b10] : List Ctl).flatMap fun c => [Turn.lfsr 0 false c, Turn.lfsr 1 false c]) ++ [] := by decide

theorem witness_PeriodOf1023 : 0 < 1 ∧ 1 < 1023 ∧ 0 < 1022 ∧ 1022 < 1023 := by decide

theorem witness_StepIsOneToOneWithTap10 :
    stage (tapMask [3, 10]) 10 = true ∧ stage (tapMask [1, 2]) 10 = false := by decide

/-- BAD_PRN at 0, 33 and 63; satellites 1 and 32; each kind of malformed entry at the ends of its range; and
well-formed entries at the ends of theirs. -/
theorem witness_CaSelCommand :
    (¬ (1 ≤ (0 : Prn).toNat ∧ (0 : Prn).toNat ≤ 32) ∧ ¬ (1 ≤ (33 : Prn).toNat ∧ (33 : Prn).toNat ≤ 32) ∧
      ¬ (1 ≤ (63 : Prn).toNat ∧ (63 : Prn).toNat ≤ 32)) ∧
    ((1 : Prn).toNat = (0 : Fin 32).val + 1 ∧ (32 : Prn).toNat = (31 : Fin 32).val + 1) ∧
    ((resetWithEntry 0 0x05).cfg.tapTable[(0 : Fin 32)] = 0x05 ∧ checkEntry 0x05 = some .tapRangeA ∧
      checkEntry 0xB1 = some .tapRangeA ∧ checkEntry 0xBB = some .tapRangeA) ∧
    ((resetWithEntry 31 0x1B).cfg.tapTable[(31 : Fin 32)] = 0x1B ∧ checkEntry 0x1B = some .tapRangeB ∧
      checkEntry 0xA0 = some .tapRangeB) ∧
    ((resetWithEntry 6 0x77).cfg.tapTable[(6 : Fin 32)] = 0x77 ∧ checkEntry 0x11 = some .tapDup ∧
      checkEntry 0xAA = some .tapDup) ∧
    (checkEntry 0x1A = none ∧ checkEntry 0xA1 = none) := by decide

theorem witness_CaStepCommand : State.reset.selPrn = 0 ∧ selected.selPrn ≠ 0 := by decide

/-- A step that leaves both, one that shifts both, one that seeds both. -/
theorem witness_GeneratorsMoveTogether :
    (∃ t, step (hostWith 0x70000000 selected) = .next t) ∧ (∃ t, step (hostWith 0x20000000 selected) = .next t) ∧
    (∃ t, step (hostWith 0x10020000 afterTen) = .next t) := ⟨⟨_, rfl⟩, ⟨_, rfl⟩, ⟨_, rfl⟩⟩

/-- For `CaStreamIsTheCode` and `CaGenPeriod`: satellites 1 and 32. -/
theorem witness_CaStreamAndPeriod :
    ((1 : Prn).toNat = (0 : Fin 32).val + 1 ∧ checkEntry State.reset.cfg.tapTable[(0 : Fin 32)] = none) ∧
    ((32 : Prn).toNat = (31 : Fin 32).val + 1 ∧ checkEntry State.reset.cfg.tapTable[(31 : Fin 32)] = none) := by decide

theorem witness_RomBuildCommand :
    State.reset.romState = .uninit ∧ building.romState = .building ∧ built.romState = .built ∧
    failed.romState = .failed := ⟨rfl, rfl, rfl, rfl⟩

/-- BAD_PRN at 0 and 33; BAD_INDEX at 1023 with satellites 1 and 32; legal operands at both ends; the four states; a
listed cell; and a held read. -/
theorem witness_RomReadCommand :
    (¬ (1 ≤ (0 : Prn).toNat ∧ (0 : Prn).toNat ≤ 32) ∧ ¬ (1 ≤ (33 : Prn).toNat ∧ (33 : Prn).toNat ≤ 32)) ∧
    (1 ≤ (1 : Prn).toNat ∧ (32 : Prn).toNat ≤ 32 ∧ 1022 < (1023 : ChipIdx).toNat) ∧
    ((0 : ChipIdx).toNat ≤ 1022 ∧ (1022 : ChipIdx).toNat ≤ 1022) ∧
    failed.romState = .failed ∧ State.reset.romState = .uninit ∧ building.romState = .building ∧ built.romState = .built ∧
    codeRead built.code (((1 : Prn).toNat - 1) * 1023 + (0 : ChipIdx).toNat) = some 1 ∧
    codeRead built.code (((32 : Prn).toNat - 1) * 1023 + (1022 : ChipIdx).toNat) = some 0 ∧
    ({ building with port := some 0x50010000, turns := [.host] }.eagerDue = false ∧
      decode (.cmd32 0x50010000) = .ok (.romRead 1 0)) := by decide +kernel

theorem witness_TapReadCommand :
    ¬ (1 ≤ (63 : Prn).toNat ∧ (63 : Prn).toNat ≤ 32) ∧ (1 : Prn).toNat = (0 : Fin 32).val + 1 ∧
    (32 : Prn).toNat = (31 : Fin 32).val + 1 := by decide

theorem witness_EntryCheckOrder :
    2 = ((0x26 : TapEntry).extractLsb' 4 4).toNat ∧ 6 = ((0x26 : TapEntry).extractLsb' 0 4).toNat := by decide

/-- A table malformed at satellite 7, at satellite 1 and at satellite 32. -/
theorem witness_FailedBuildLatchesLowest :
    ((∀ k : Fin 32, k.val < 6 → checkEntry (withEntry 6 0x1B).tapTable[k] = none) ∧
      checkEntry (withEntry 6 0x1B).tapTable[(6 : Fin 32)] = some .tapRangeB ∧
      ([0, 0, 0, 0, 0, 0, 0] : List Nat).length = (6 : Fin 32).val + 1) ∧
    ((∀ k : Fin 32, k.val < 0 → checkEntry (withEntry 0 0x77).tapTable[k] = none) ∧
      checkEntry (withEntry 0 0x77).tapTable[(0 : Fin 32)] = some .tapDup) ∧
    ((∀ k : Fin 32, k.val < 31 → checkEntry (withEntry 31 0x05).tapTable[k] = none) ∧
      checkEntry (withEntry 31 0x05).tapTable[(31 : Fin 32)] = some .tapRangeA) ∧
    { resetWithEntry 6 0x1B with romState := .building }.cursor = .check 0 := by decide

theorem witness_EveryBuildEnds :
    building.romState = .building ∧ 32801 ≤ (List.replicate 32801 0 : List Nat).length := ⟨rfl, by rw [List.length_replicate]⟩

/-- The host and the builder take turns. -/
def alternate : Schedule := fun k => if k % 2 = 0 then .host else .builder 0 []

/-- The run of that schedule from a build with a `ROM.READ` held. -/
def alternateRun : Nat → State
  | 0 => { building with port := some 0x50010000 }
  | n + 1 =>
    match step { alternateRun n with turns := [alternate n] } with
    | .next t => t
    | .fault _ => alternateRun n
    | .refused _ => alternateRun n

theorem alternate_next (s : State) (n : Nat) : ∃ t, step { s with turns := [alternate n] } = .next t := by
  by_cases he : s.eagerDue = true
  · refine ⟨_, step_of_eager he ?_⟩
    unfold ResetNext alternate
    split <;> simp
  · have ht : step { s with turns := [alternate n] } = runTurn (alternate n) { s with turns := [] } :=
      step_of_turn (Bool.eq_false_iff.mpr he) rfl
    rw [ht]
    unfold alternate
    split
    · exact hostTurn_next _
    · exact ⟨_, rfl⟩

theorem witness_EveryBuildEnds_runs :
    Follows alternate alternateRun ∧ (∀ k, alternate k ≠ .rst) ∧ BuilderFair alternate ∧
    (alternateRun 0).eagerDue = false ∧ (alternateRun 0).romState = .building ∧
    32801 ≤ builderTurns alternate 65602 := by
  refine ⟨fun n => ?_, fun k => ?_, fun n => ⟨2 * n + 1, by omega, ?_⟩, rfl, rfl, by decide +kernel⟩
  · obtain ⟨t, ht⟩ := alternate_next (alternateRun n) n
    simp only [alternateRun, ht]
  · unfold alternate
    split <;> simp
  · simp [alternate, isBuilderTurn]

/-- A reset, the eager start, each host trigger, and the end of a build in each way. -/
theorem witness_RomStateTransitions :
    (∃ t, step { failed with turns := [.rst] } = .next t ∧ t.romState ≠ failed.romState) ∧
    (EagerConsistent eager ∧ ∃ t, step eager = .next t ∧ t.romState ≠ eager.romState) ∧
    (∃ t, step (hostWith 0x40000000 State.reset) = .next t ∧ t.romState ≠ State.reset.romState) ∧
    (∃ t, step (hostWith 0x502003FE State.reset) = .next t ∧ t.romState ≠ State.reset.romState) ∧
    (∃ t, step { building with cursor := .publish, turns := [.builder 0 []] } = .next t ∧ t.romState ≠ .building) ∧
    (∃ t, step { resetWithEntry 0 0x05 with romState := .building, turns := [.builder 0 []] } = .next t ∧
      t.romState ≠ .building) :=
  ⟨⟨_, rfl, by decide⟩, ⟨fun _ => ⟨rfl, rfl, rfl⟩, _, rfl, by decide⟩, ⟨_, rfl, by decide⟩, ⟨_, rfl, by decide⟩,
    ⟨_, rfl, by decide⟩, ⟨_, rfl, by decide⟩⟩

/-- In BUILT and in FAILED, a builder's turn and a host's turn. -/
theorem witness_BuiltTableIsConstant :
    (∃ t, step { built with turns := [.builder 0 []] } = .next t ∧ ¬ ResetNext { built with turns := [.builder 0 []] }) ∧
    (∃ t, step (hostWith 0x40000000 failed) = .next t ∧ ¬ ResetNext (hostWith 0x40000000 failed) ∧
      (hostWith 0x40000000 failed).romState = .failed) :=
  ⟨⟨_, rfl, by simp [ResetNext]⟩, ⟨_, rfl, by simp [ResetNext, hostWith], rfl⟩⟩

/-- A host's turn during a build, and a builder's turn outside one. -/
theorem witness_OnlyTheBuilderWritesCode :
    (∃ t, step (hostWith 0x70000000 building) = .next t ∧ ¬ ResetNext (hostWith 0x70000000 building) ∧
      ¬ BuilderNext (hostWith 0x70000000 building)) ∧
    (∃ t, step { State.reset with turns := [.builder 0 []] } = .next t ∧
      { State.reset with turns := [.builder 0 []] }.romState ≠ .building) :=
  ⟨⟨_, rfl, by simp [ResetNext, hostWith], by simp [BuilderNext, hostWith]⟩, ⟨_, rfl, by decide⟩⟩

/-- The eager start due with the builder's turn, a clock of an instance, or no turn to come; and due in BUILDING. -/
theorem witness_EagerBuildComesFirst_anyTurn :
    (∀ u ∈ [Turn.builder 0 [], .lfsr 0 false 0b01], { eager with turns := [u] }.eagerDue = true ∧
      ¬ ResetNext { eager with turns := [u] }) ∧
    (eager.eagerDue = true ∧ ¬ ResetNext eager ∧ eager.romState = .uninit) ∧
    ({ building with eagerDue := true }.eagerDue = true ∧ ¬ ResetNext { building with eagerDue := true } ∧
      { building with eagerDue := true }.romState ≠ .uninit) := by
  refine ⟨?_, ⟨rfl, by simp [ResetNext, eager, State.initial], rfl⟩,
    rfl, by simp [ResetNext, building, State.reset, State.initial], by decide⟩
  intro u hu
  refine ⟨rfl, ?_⟩
  simp only [List.mem_cons, List.not_mem_nil, or_false] at hu
  rcases hu with rfl | rfl <;> simp [ResetNext]

theorem witness_EagerBuildComesFirst :
    { defaultConfig with eagerBuild := true }.eagerBuild = true ∧
    (defaultConfig.eagerBuild = false ∧ decode (.cmd32 0x70000000) = .ok .status) := by decide

theorem defaultTable_wellFormed : TableWellFormed defaultConfig := by unfold TableWellFormed; decide

theorem failedTable_malformed : ¬ TableWellFormed (withEntry 6 0x1B) := fun h => absurd (h 6) (by decide)

theorem buildConsistent_of_built {s : State} (hr : s.romState = .built) (hw : TableWellFormed s.cfg)
    (hc : s.code = fullTable s.cfg) : BuildConsistent s := by
  simp only [BuildConsistent, hr]
  exact ⟨hw, hc⟩

theorem built_cfg : State.reset.cfg = defaultConfig := rfl

theorem witness_BuildConsistent_built : BuildConsistent built :=
  buildConsistent_of_built rfl defaultTable_wellFormed (by simp only [built, built_cfg])

theorem witness_BuildConsistent_failed : BuildConsistent failed := ⟨rfl, failedTable_malformed⟩

/-- For `BuiltTableHoldsEveryCode` and `TableAndGeneratorAgree`. -/
theorem witness_BuiltTable :
    BuildConsistent built ∧ built.romState = .built ∧ (0 ≤ 1022 ∧ 1022 ≤ 1022) ∧
    (1 ≤ (1 : Prn).toNat ∧ (32 : Prn).toNat ≤ 32 ∧ (1022 : ChipIdx).toNat ≤ 1022) :=
  ⟨witness_BuildConsistent_built, rfl, by decide, by decide⟩

/-- A held read that completes in BUILT, and one that completes in FAILED. -/
theorem witness_ReadAnswerIgnoresInterleaving :
    (BuildConsistent { built with port := some 0x50010000, turns := [.host] } ∧
      decode (.cmd32 0x50010000) = .ok (.romRead 1 0) ∧ (1 : Prn).toNat = (0 : Fin 32).val + 1 ∧
      ∃ t, step { built with port := some 0x50010000, turns := [.host] } = .next t ∧ t.port = none) ∧
    (BuildConsistent { failed with port := some 0x502003FE, turns := [.host] } ∧
      decode (.cmd32 0x502003FE) = .ok (.romRead 32 1022) ∧ (32 : Prn).toNat = (31 : Fin 32).val + 1 ∧
      ∃ t, step { failed with port := some 0x502003FE, turns := [.host] } = .next t ∧ t.port = none) :=
  ⟨⟨buildConsistent_of_built rfl defaultTable_wellFormed (by simp only [built, built_cfg]),
      by decide, by decide, ⟨_, rfl, rfl⟩⟩,
    ⟨⟨rfl, failedTable_malformed⟩, by decide, by decide, ⟨_, rfl, rfl⟩⟩⟩

theorem witness_CaCommandsCommuteWithBuild :
    (∃ prn, Instr.caSel 33 = .caSel prn) ∧ Instr.caStep = .caStep ∧ ∃ u, Instr.caRdst 1 = .caRdst u :=
  ⟨⟨_, rfl⟩, rfl, ⟨_, rfl⟩⟩

theorem witness_CodeAddressesOneToOne :
    (1022 ≤ 1022 ∧ codeAddr 31 1022 = codeAddr 31 1022) ∧ 32735 ≤ 32735 ∧ codeAddr 31 1022 = 32735 := by decide

theorem witness_DefaultCodesPairwiseDistinct : (0 : Fin 32) ≠ 31 := by decide

theorem witness_FaultHasNoOtherEffect :
    Instr.caStep.format = .cmd32 ∧ ∃ t d, exec .caStep State.reset = .next t ∧ t.rsp = some ⟨true, d⟩ :=
  ⟨rfl, _, _, rfl, rfl⟩

/-- A second fault, and a `STATUS`. -/
theorem witness_OnlyResetClearsTheLatch :
    (∃ t, step (hostWith 0x20000000 failed) = .next t ∧ ¬ ResetNext (hostWith 0x20000000 failed) ∧
      (hostWith 0x20000000 failed).err = true) ∧
    ∃ t, step (hostWith 0x70000000 failed) = .next t :=
  ⟨⟨_, rfl, by simp [ResetNext, hostWith], rfl⟩, ⟨_, rfl⟩⟩

/-- BUILDING ends by the builder; a read with the last legal operands holds in UNINIT and, held, in BUILDING; the read
with `IDX` 1023 does not, nor does a read in BUILT. -/
theorem witness_TheHoldIsTheOnlyWait :
    (∃ t, step { building with cursor := .publish, turns := [.builder 0 []] } = .next t ∧ t.romState ≠ .building) ∧
    ((∃ t, step (hostWith 0x502003FE State.reset) = .next t) ∧ decode (.cmd32 0x502003FE) = .ok (.romRead 32 1022) ∧
      1 ≤ (32 : Prn).toNat ∧ (32 : Prn).toNat ≤ 32 ∧ (1022 : ChipIdx).toNat ≤ 1022) ∧
    (∃ t, step { building with port := some 0x502003FE, turns := [.host] } = .next t) ∧
    ((∃ t, step (hostWith 0x502003FF State.reset) = .next t) ∧ decode (.cmd32 0x502003FF) = .ok (.romRead 32 1023)) ∧
    ((∃ t, step (hostWith 0x50010000 built) = .next t) ∧ built.romState ≠ .uninit ∧ built.romState ≠ .building) :=
  ⟨⟨_, rfl, by decide⟩, ⟨⟨_, rfl⟩, by decide, by decide, by decide, by decide⟩, ⟨_, rfl⟩, ⟨⟨_, rfl⟩, by decide⟩,
    ⟨⟨_, rfl⟩, by decide, by decide⟩⟩

/-- One command of each shape, one control of each. -/
theorem witness_Frames :
    (∃ t, exec (.caSel 1) State.reset = .next t) ∧ (∃ t, exec .caStep selected = .next t) ∧
    (∃ t, exec (.romRead 1 0) State.reset = .next t) ∧ (∃ t, exec .romBuild State.reset = .next t) ∧
    (∃ t, exec .status State.reset = .next t ∧ ∀ d, t.rsp ≠ some ⟨true, d⟩) ∧
    (Instr.lfsrStep.format = .lfsrCtl ∧ ∃ t, exec .lfsrStep twoUnits = .next t ∧ (1 : Nat) ≠ twoUnits.lfsrAt) :=
  ⟨⟨_, rfl⟩, ⟨_, rfl⟩, ⟨_, rfl⟩, ⟨_, rfl⟩, ⟨_, rfl, by intro d h; cases h⟩, rfl, _, rfl, by decide⟩

theorem witness_ConfigurationIsConstant : ∃ t, step { twoUnits with turns := [.lfsr 1 false 0b01] } = .next t := ⟨_, rfl⟩

/-- During a build, with a command held, a fault latched and a satellite selected. -/
theorem witness_ResetTakesEveryElementToItsValue :
    { afterTen with romState := .building, port := some 0x50010000, err := true, errCode := 1, turns := [.rst, .host] }.turns
      = .rst :: [.host] := rfl

/-- A builder's turn of two moves. -/
theorem witness_BuilderIsIsolated :
    { building with turns := [.builder 0 [3]] }.eagerDue = false ∧
    { building with turns := [.builder 0 [3]] }.turns = .builder 0 [3] :: [] := ⟨rfl, rfl⟩

/-! The invariants, each with a state in which its clauses say something, and a step from it. -/

theorem witness_StepKeepsRegistersInRange :
    RegistersInRange { afterTen with chipCnt := 1022 } ∧
    ∃ t, step (hostWith 0x20000000 { afterTen with chipCnt := 1022 }) = .next t :=
  ⟨by unfold RegistersInRange; decide, _, rfl⟩

theorem witness_StepKeepsLatchConsistent :
    LatchConsistent failed ∧ LatchConsistent State.reset ∧ ∃ t, step (hostWith 0x20000000 failed) = .next t :=
  ⟨by unfold LatchConsistent; decide, by unfold LatchConsistent; decide, _, rfl⟩

theorem witness_StepKeepsSelectionConsistent :
    SelectionConsistent afterTen ∧ afterTen.selPrn ≠ 0 ∧ ∃ t, step (hostWith 0x10200000 afterTen) = .next t :=
  ⟨fun _ => ⟨0, by decide⟩, by decide, _, rfl⟩

theorem witness_StepKeepsLockstep :
    Lockstep afterTen ∧ ∃ t, step (hostWith 0x20000000 afterTen) = .next t := ⟨⟨10, by decide⟩, _, rfl⟩

theorem witness_StepKeepsBuildConsistent :
    (BuildConsistent { building with
        cursor := .chip 0 2, b1 := 0x3FC, b2 := 0x3FC, b2Out := 0x022, code := [(0, 1), (1, 1)], turns := [.builder 0 []] } ∧
      ∃ t, step { building with
        cursor := .chip 0 2, b1 := 0x3FC, b2 := 0x3FC, b2Out := 0x022, code := [(0, 1), (1, 1)], turns := [.builder 0 []] } =
          .next t) ∧
    (BuildConsistent { failed with turns := [.builder 0 []] } ∧ ∃ t, step { failed with turns := [.builder 0 []] } = .next t) :=
  ⟨⟨⟨defaultTable_wellFormed, by decide, by decide, by decide, by decide⟩, _, rfl⟩,
    ⟨⟨rfl, failedTable_malformed⟩, _, rfl⟩⟩

theorem witness_StepKeepsPortConsistent :
    PortConsistent { building with port := some 0x502003FE, turns := [.host] } ∧
    ∃ t, step { building with port := some 0x502003FE, turns := [.host] } = .next t :=
  ⟨by
    intro w h
    cases h
    exact ⟨rfl, by decide, 32, 1022, by decide, by decide⟩, _, rfl⟩

/-- The eager start itself, and a reset that makes it due again. -/
theorem witness_StepKeepsEagerConsistent :
    (EagerConsistent eager ∧ eager.eagerDue = true ∧ ¬ ResetNext eager ∧ ∃ t, step eager = .next t) ∧
    (EagerConsistent { eager with eagerDue := false, turns := [.rst] } ∧
      ∃ t, step { eager with eagerDue := false, turns := [.rst] } = .next t) :=
  ⟨⟨fun _ => ⟨rfl, rfl, rfl⟩, rfl, by simp [ResetNext, eager, State.initial], _, rfl⟩, (fun h => by cases h), _, rfl⟩

theorem witness_StepKeepsCodeCanonical :
    codeWf [(0, 1), (1, 1), (32735, 0)] = true ∧
    ∃ t, step { building with code := [(0, 1), (1, 1), (32735, 0)], turns := [.builder 0 []] } = .next t :=
  ⟨by decide, _, rfl⟩

end Sys2Proof.Tests
end

section
/-! The host's turn where its command decodes: what is presented, and what then runs. -/

namespace Sys2Proof.Machine

/-- An empty port takes the queue's head, and the pending response goes (70_reset_and_hazards.md R206). -/
theorem presentNext_of_queued {s : State} {w : Word} {ws : List Word} (hp : s.port = none)
    (hq : s.hostQueue = w :: ws) :
    presentNext s = { s with port := some w, hostQueue := ws, rsp := none } := by
  rcases presentNext_cases s with ⟨-, hheld | hempty⟩ | ⟨w', ws', -, hq', he⟩
  · exact absurd hp hheld
  · cases hempty.symm.trans hq
  · cases hq'.symm.trans hq
    exact he

/-- A held command stays as it is (70_reset_and_hazards.md R206). -/
theorem presentNext_of_held {s : State} {w : Word} (hp : s.port = some w) : presentNext s = s := by
  rcases presentNext_cases s with ⟨he, -⟩ | ⟨_, _, hnone, -, -⟩
  · exact he
  · cases hp.symm.trans hnone

/-- The host's turn runs the word that stands in the port after presenting. -/
theorem hostTurn_of_presented {s : State} {w : Word} (hp : (presentNext s).port = some w) :
    hostTurn s = runCommand w (presentNext s) := by
  simp only [hostTurn, hp]

/-- A word that decodes runs as its instruction. -/
theorem runCommand_of_decode {w : Word} {i : Instr} (hd : decode (.cmd32 w) = .ok i) (s : State) :
    runCommand w s = exec i s := by
  simp only [runCommand, hd]

/-- A step on the host's turn, with the word it presents known. -/
theorem step_of_host_presented {s : State} {w : Word} {ts : List Turn} (he : s.eagerDue = false)
    (ht : s.turns = .host :: ts) (hp : (presentNext { s with turns := ts }).port = some w) :
    step s = runCommand w (presentNext { s with turns := ts }) :=
  (step_of_turn he ht).trans (hostTurn_of_presented hp)

/-- Settles O6: presenting gives the queue's head or leaves the held word, and the word presented is the one run. -/
theorem hostStepRunsDecodedCommand : Obligations.HostStepRunsDecodedCommand := by
  refine ⟨fun s w ws ts i he ht hp hq hd => ?queued, fun s w ts i he ht hp hd => ?held⟩
  case queued =>
    have hpres : presentNext { s with turns := ts } =
        { s with port := some w, hostQueue := ws, rsp := none, turns := ts } := presentNext_of_queued hp hq
    rw [step_of_host_presented he ht (by rw [hpres]), hpres, runCommand_of_decode hd]
  case held =>
    have hpres : presentNext { s with turns := ts } = { s with turns := ts } := presentNext_of_held hp
    rw [step_of_host_presented he ht (by rw [hpres]; exact hp), hpres, runCommand_of_decode hd]

end Sys2Proof.Machine
end

section
/-! What a host command leaves unchanged (10_state.md R40). -/

namespace Sys2Proof.Machine

/-- A property holds after a host command if it held before, a fault and an answer and a hold keep it, and so does the
operation on the registers that the command may run: the one case split of a frame. -/
theorem exec_cmd_keeps {P : State → Prop} {i : Instr} {s t : State}
    (fault : ∀ c p, P s → P (raiseFault c p s))
    (answer : ∀ d u, P u → P (respond d u))
    (wait : ∀ u, P u → P (hold u))
    (select : ∀ (prn : Prn) (sat : Fin 32), i = .caSel prn → prn.toNat = sat.val + 1 →
      checkEntry (tapEntry s sat) = none → P s → P (selectSat prn (tapEntry s sat) s))
    (advance : i = .caStep → P s → P (stepCaGen s))
    (start : (i = .romBuild ∨ ∃ prn idx, i = .romRead prn idx) → P s → P (startBuild s))
    (hf : i.format = .cmd32) (h : exec i s = .next t) (hs : P s) : P t := by
  rcases exec_cmd_cases hf h with
    ⟨c, p, rfl⟩ | ⟨d, rfl, -, -, -⟩ | ⟨prn, sat, hi, hsat, he, rfl⟩ | ⟨hi, -, rfl⟩ | ⟨hi, rfl⟩ |
      ⟨prn, idx, hi, -, -, ⟨-, rfl⟩ | ⟨-, rfl⟩⟩
  case inl => exact fault c p hs
  case inr.inl => exact answer d _ hs
  case inr.inr.inl => exact answer _ _ (select prn sat hi hsat he hs)
  case inr.inr.inr.inl => exact answer _ _ (advance hi hs)
  case inr.inr.inr.inr.inl => exact answer _ _ (start (.inl hi) hs)
  case inr.inr.inr.inr.inr.inl => exact wait _ (start (.inr ⟨prn, idx, hi⟩) hs)
  case inr.inr.inr.inr.inr.inr => exact wait _ hs

/-- The fields no host command changes: the configuration, `CODE`, the builder's registers, the standalone instances and
the inputs. -/
def SameOutsideCommands (s t : State) : Prop :=
  t.cfg = s.cfg ∧ t.code = s.code ∧ t.b1 = s.b1 ∧ t.b2 = s.b2 ∧ t.b2Out = s.b2Out ∧ t.lfsrs = s.lfsrs ∧
    t.lfsrAt = s.lfsrAt ∧ t.hostQueue = s.hostQueue ∧ t.turns = s.turns ∧ t.eagerDue = s.eagerDue

section
variable {i : Instr} {s t : State}

theorem exec_cmd_sameOutsideCommands (hf : i.format = .cmd32) (h : exec i s = .next t) :
    SameOutsideCommands s t :=
  exec_cmd_keeps (P := SameOutsideCommands s)
    (fault := fun c p _ => by simp [SameOutsideCommands])
    (answer := fun _ _ => id)
    (wait := fun _ => id)
    (select := fun _ _ _ _ _ => id)
    (advance := fun _ => id)
    (start := fun _ _ => by simp [SameOutsideCommands])
    hf h (by simp [SameOutsideCommands])

/-- Only `CA.SEL` changes the selection (41_ca_generator.md R123). -/
theorem exec_cmd_selection (hf : i.format = .cmd32) (h : exec i s = .next t) (hi : ∀ prn, i ≠ .caSel prn) :
    t.selPrn = s.selPrn ∧ t.g2Out = s.g2Out :=
  exec_cmd_keeps (P := fun u => u.selPrn = s.selPrn ∧ u.g2Out = s.g2Out)
    (fault := fun c p _ => by simp)
    (answer := fun _ _ => id)
    (wait := fun _ => id)
    (select := fun prn _ hsel => absurd hsel (hi prn))
    (advance := fun _ => id)
    (start := fun _ _ => by simp)
    hf h ⟨rfl, rfl⟩

/-- Only `CA.SEL` and `CA.STEP` change `G1`, `G2` and the count (41_ca_generator.md R123, R124). -/
theorem exec_cmd_generators (hf : i.format = .cmd32) (h : exec i s = .next t) (hi : ∀ prn, i ≠ .caSel prn)
    (hi' : i ≠ .caStep) : t.g1 = s.g1 ∧ t.g2 = s.g2 ∧ t.chipCnt = s.chipCnt :=
  exec_cmd_keeps (P := fun u => u.g1 = s.g1 ∧ u.g2 = s.g2 ∧ u.chipCnt = s.chipCnt)
    (fault := fun c p _ => by simp)
    (answer := fun _ _ => id)
    (wait := fun _ => id)
    (select := fun prn _ hsel => absurd hsel (hi prn))
    (advance := fun hstep => absurd hstep hi')
    (start := fun _ _ => by simp)
    hf h ⟨rfl, rfl, rfl⟩

/-- Only `ROM.BUILD` and `ROM.READ` start a build (42_code_rom.md R143, R144). -/
theorem exec_cmd_romState (hf : i.format = .cmd32) (h : exec i s = .next t) (hi : i ≠ .romBuild)
    (hi' : ∀ prn idx, i ≠ .romRead prn idx) : t.romState = s.romState ∧ t.cursor = s.cursor :=
  exec_cmd_keeps (P := fun u => u.romState = s.romState ∧ u.cursor = s.cursor)
    (fault := fun c p _ => by simp)
    (answer := fun _ _ => id)
    (wait := fun _ => id)
    (select := fun _ _ _ _ _ => id)
    (advance := fun _ => id)
    (start := fun hstart => hstart.elim (absurd · hi) fun ⟨prn, idx, hread⟩ => absurd hread (hi' prn idx))
    hf h ⟨rfl, rfl⟩

/-- A host command that raises no fault leaves the latch alone (60_exceptions.md R182). -/
theorem exec_cmd_fault_or_latch (hf : i.format = .cmd32) (h : exec i s = .next t) :
    (∃ c p, t = raiseFault c p s) ∨ (t.err = s.err ∧ t.errCode = s.errCode ∧ t.errPrn = s.errPrn) := by
  rcases exec_cmd_cases hf h with
    hfault | ⟨d, rfl, -⟩ | ⟨prn, sat, -, -, -, rfl⟩ | ⟨-, -, rfl⟩ | ⟨-, rfl⟩ |
      ⟨prn, idx, -, -, -, ⟨-, rfl⟩ | ⟨-, rfl⟩⟩
  case inl => exact .inl hfault
  all_goals exact .inr (by simp)

end

/-- Settles O47: one frame lemma for each group of registers. -/
theorem commandFrame : Obligations.CommandFrame := by
  intro i s t hf h
  obtain ⟨hcfg, hcode, hb1, hb2, hb2Out, hlfsrs, hlfsrAt, hqueue, hturns, heager⟩ := exec_cmd_sameOutsideCommands hf h
  refine ⟨hcfg, fun a => by rw [hcode], hb1, hb2, hb2Out, hlfsrs, hlfsrAt, hqueue, hturns, heager,
    exec_cmd_selection hf h, exec_cmd_generators hf h, exec_cmd_romState hf h, fun hrsp => ?_⟩
  rcases exec_cmd_fault_or_latch hf h with ⟨c, p, rfl⟩ | hlatch
  · exact absurd rfl (hrsp _)
  · exact hlatch

end Sys2Proof.Machine
end

section
/-! The configuration is constant (10_state.md R36). -/

namespace Sys2Proof.Machine

/-- The configuration a state carries: `TAP_TABLE` and `EAGER_BUILD`, and the two tap sets of each standalone
unit, in order. -/
def configOf (s : State) : Config × List (TapMask × TapMask) :=
  (s.cfg, s.lfsrs.map fun u => (u.outTaps, u.fbTaps))

theorem configOf_eq_of_fields {s t : State} (hc : t.cfg = s.cfg) (hl : t.lfsrs = s.lfsrs) :
    configOf t = configOf s := by
  unfold configOf
  rw [hc, hl]

/-- A unit replaced by one with its tap sets leaves the list of the tap sets. -/
theorem map_taps_set {us : List LfsrUnit} {k : Nat} {u v : LfsrUnit} (hu : us[k]? = some u)
    (ho : v.outTaps = u.outTaps) (hf : v.fbTaps = u.fbTaps) :
    ((us.set k v).map fun u => (u.outTaps, u.fbTaps)) = us.map fun u => (u.outTaps, u.fbTaps) := by
  obtain ⟨hk, rfl⟩ := List.getElem?_eq_some_iff.mp hu
  rw [List.map_set, ho, hf, ← List.getElem_map (fun u : LfsrUnit => (u.outTaps, u.fbTaps)) (h := by simpa using hk),
    List.set_getElem_self]

theorem startBuild_configOf (s : State) : configOf (startBuild s) = configOf s :=
  configOf_eq_of_fields (by simp) (by simp)

theorem hostTurn_configOf {s t : State} (h : hostTurn s = .next t) : configOf t = configOf s := by
  have hp : configOf (presentNext s) = configOf s := configOf_eq_of_fields (by simp) (by simp)
  rcases hostTurn_cases h with ⟨-, -, rfl⟩ | ⟨w, -, ⟨i, -, hf, he⟩ | ⟨-, rfl⟩⟩
  · rfl
  · obtain ⟨hcfg, -, -, -, -, hlfsrs, -⟩ := exec_cmd_sameOutsideCommands hf he
    exact (configOf_eq_of_fields hcfg hlfsrs).trans hp
  · exact configOf_eq_of_fields (by simp) (by simp)

theorem builderMove_configOf (n : Nat) (s : State) : configOf (builderMove n s) = configOf s := by
  rcases builderMove_cases n s with
    ⟨-, e⟩ | ⟨-, ⟨k, c, -, -, e⟩ | ⟨k, -, -, e⟩ | ⟨k, -, e⟩ | ⟨k, i, -, e⟩ | ⟨-, e⟩⟩ <;> rw [e]
  case inr.inl => exact configOf_eq_of_fields (by simp) (by simp)
  all_goals rfl

theorem builderStep_configOf (first : Nat) (more : List Nat) (s : State) :
    configOf (builderStep first more s) = configOf s :=
  builderMoves_keeps (P := fun u => configOf u = configOf s)
    (fun n u hu => (builderMove_configOf n u).trans hu) (first :: more) rfl

theorem lfsrTurn_configOf {k : Nat} {rst : Bool} {c : Ctl} {s t : State} (h : lfsrTurn k rst c s = .next t) :
    configOf t = configOf s := by
  obtain ⟨i, hf, -, -, he⟩ := lfsrTurn_cases h
  obtain ⟨u, hu, -, -, v, hvo, hvf, rfl⟩ := exec_ctl_cases hf he
  exact congrArg (Prod.mk s.cfg) (map_taps_set hu hvo hvf)

/-- A reset makes each unit anew with the tap sets it has. -/
theorem resetBlock_configOf (s : State) : configOf (resetBlock s) = configOf s := by
  simp [configOf, resetBlock, State.initial, LfsrUnit.fresh]

theorem runTurn_configOf {u : Turn} {s t : State} (h : runTurn u s = .next t) : configOf t = configOf s := by
  cases u with
  | host => exact hostTurn_configOf h
  | builder first more => cases h; exact builderStep_configOf first more s
  | lfsr k rst c => exact lfsrTurn_configOf h
  | rst => cases h; exact resetBlock_configOf s

theorem nextMove_configOf {s t : State} (h : nextMove s = .next t) : configOf t = configOf s := by
  rcases step_cases h with ⟨-, -, rfl⟩ | ⟨-, rfl⟩ | ⟨u, ts, -, hu⟩
  · exact startBuild_configOf s
  · rfl
  · exact (runTurn_configOf hu).trans rfl

/-- Settles O49: every turn of every agent, and the eager start, leaves `configOf`. -/
theorem configurationIsConstant : Obligations.ConfigurationIsConstant :=
  fun _ _ h => Prod.mk.inj (nextMove_configOf h)

end Sys2Proof.Machine
end

section
/-! The ranges of the registers (10_state.md R47), and what holds at reset (R45). -/

namespace Sys2Proof.Machine

open Sys2Proof.Safety

theorem registersInRange_of_fields {s t : State} (hc : t.chipCnt = s.chipCnt) (hp : t.selPrn = s.selPrn)
    (ho : t.g2Out = s.g2Out) (h : RegistersInRange s) : RegistersInRange t := by
  unfold RegistersInRange
  rw [hc, hp, ho]
  exact h

/-- A selection names a satellite of 1..32, and its entry, being well formed, has a mask that is not empty. -/
theorem registersInRange_selectSat {prn : Prn} {sat : Fin 32} {e : TapEntry} (s : State)
    (hsat : prn.toNat = sat.val + 1) (he : checkEntry e = none) : RegistersInRange (selectSat prn e s) := by
  have hprn : prn ≠ 0 := by rintro rfl; simp at hsat
  exact ⟨by simp, by simp only [selectSat_selPrn]; omega, iff_of_false hprn (entryMask_ne_zero he)⟩

/-- The count goes on modulo 1023 (41_ca_generator.md R124). -/
theorem registersInRange_stepCaGen {s : State} (h : RegistersInRange s) : RegistersInRange (stepCaGen s) := by
  obtain ⟨-, hsel⟩ := h
  refine ⟨?_, hsel⟩
  simp only [stepCaGen_chipCnt, BitVec.toNat_ofNat]
  omega

theorem registersInRange_raiseFault (c : FaultCode) (p : BitVec 6) {s : State} (h : RegistersInRange s) :
    RegistersInRange (raiseFault c p s) :=
  registersInRange_of_fields (by simp) (by simp) (by simp) h

theorem registersInRange_startBuild {s : State} (h : RegistersInRange s) : RegistersInRange (startBuild s) :=
  registersInRange_of_fields (by simp) (by simp) (by simp) h

theorem registersInRange_exec {i : Instr} {s t : State} (hf : i.format = .cmd32) (h : exec i s = .next t)
    (hs : RegistersInRange s) : RegistersInRange t :=
  exec_cmd_keeps
    (fault := fun c p => registersInRange_raiseFault c p)
    (answer := fun _ _ => id)
    (wait := fun _ => id)
    (select := fun _ _ _ hsat he _ => registersInRange_selectSat s hsat he)
    (advance := fun _ => registersInRange_stepCaGen)
    (start := fun _ => registersInRange_startBuild)
    hf h hs

/-- The builder never touches `CAGEN` (20_memory.md R65). -/
theorem builderMove_caGen (n : Nat) (s : State) :
    (builderMove n s).g1 = s.g1 ∧ (builderMove n s).g2 = s.g2 ∧ (builderMove n s).g2Out = s.g2Out ∧
      (builderMove n s).selPrn = s.selPrn ∧ (builderMove n s).chipCnt = s.chipCnt := by
  rcases builderMove_cases n s with
    ⟨-, e⟩ | ⟨-, ⟨k, c, -, -, e⟩ | ⟨k, -, -, e⟩ | ⟨k, -, e⟩ | ⟨k, i, -, e⟩ | ⟨-, e⟩⟩ <;> rw [e] <;> simp

theorem registersInRange_builderMove (n : Nat) {s : State} (h : RegistersInRange s) :
    RegistersInRange (builderMove n s) := by
  obtain ⟨-, -, hout, hsel, hcnt⟩ := builderMove_caGen n s
  exact registersInRange_of_fields hcnt hsel hout h

theorem registersInRange_initial (cfg : Config) (units : List LfsrUnit) :
    RegistersInRange (State.initial cfg units) :=
  ⟨Nat.zero_le _, Nat.zero_le _, iff_of_true rfl rfl⟩

theorem registersInRange_resetBlock (s : State) : RegistersInRange (resetBlock s) :=
  registersInRange_of_fields rfl rfl rfl (registersInRange_initial s.cfg [])

/-- Settles O53: every kind of move keeps the ranges, and a reset meets them. -/
theorem stepKeepsRegistersInRange : Obligations.StepKeepsRegistersInRange :=
  fun _ _ h => nextMove_keeps
    (turns := fun _ _ => id)
    (unit := fun _ _ _ => id)
    (present := fun _ _ _ => id)
    (command := fun _ _ _ => registersInRange_exec)
    (illegal := fun _ => registersInRange_raiseFault _ _)
    (build := fun n _ => registersInRange_builderMove n)
    (eager := fun _ => registersInRange_startBuild)
    (reset := fun _ s _ => registersInRange_resetBlock s)
    h

/-- Settles O50: by the definition of the reset state; its one standalone unit is a fresh one. -/
theorem resetStateValues : Obligations.ResetStateValues := by
  refine ⟨rfl, rfl, rfl, rfl, rfl, rfl, rfl, rfl, rfl, rfl, rfl, fun u hu => ?_, rfl⟩
  obtain rfl : u = LfsrUnit.fresh g1OutTaps g1FbTaps := List.mem_singleton.mp hu
  rfl

/-- `G1` and `G2` have taken no step, and the count is 0. -/
theorem lockstep_initial (cfg : Config) (units : List LfsrUnit) : Lockstep (State.initial cfg units) :=
  ⟨0, rfl, rfl, rfl⟩

/-- Settles O52: at reset nothing is latched, selected, built or presented, so most invariants ask nothing. -/
theorem invariantsHoldAtReset : Obligations.InvariantsHoldAtReset := by
  intro cfg units
  have latch : LatchConsistent (State.initial cfg units) := ⟨fun _ => ⟨rfl, rfl⟩, nofun⟩
  have selection : SelectionConsistent (State.initial cfg units) := fun h => absurd rfl h
  have build : BuildConsistent (State.initial cfg units) := rfl
  have port : PortConsistent (State.initial cfg units) := nofun
  have eager : EagerConsistent (State.initial cfg units) := fun h => ⟨h, rfl, rfl⟩
  exact ⟨⟨registersInRange_initial cfg units, latch, selection, lockstep_initial cfg units, build, port, eager⟩,
    codeWf_nil⟩

end Sys2Proof.Machine
end

section
/-! Who writes `CODE`, and what of it stays (20_memory.md R50, R52, R55, R60). -/

namespace Sys2Proof.Machine

open Sys2Proof.Safety

/-! ### The canonical form of `CODE` -/

theorem exec_cmd_code {i : Instr} {s t : State} (hf : i.format = .cmd32) (h : exec i s = .next t) :
    t.code = s.code := by
  obtain ⟨-, hcode, -⟩ := exec_cmd_sameOutsideCommands hf h
  exact hcode

/-- Only chip steps write, and the chips of a satellite that are left end inside its row of 1023 addresses. -/
theorem codeWf_builderMove (n : Nat) {s : State} (h : codeWf s.code = true) :
    codeWf (builderMove n s).code = true := by
  rcases builderMove_cases n s with
    ⟨-, e⟩ | ⟨-, ⟨k, c, -, -, e⟩ | ⟨k, -, -, e⟩ | ⟨k, -, e⟩ | ⟨k, i, -, e⟩ | ⟨-, e⟩⟩ <;> rw [e]
  case inr.inl => simpa using h
  case inr.inr.inr.inr.inl =>
    refine codeWf_codeWriteRun h ?_
    rw [chipRun_length, codeAddr]
    omega
  all_goals exact h

/-- Settles O59: only a builder's move writes, a run inside the address space; a reset lists no cell. -/
theorem stepKeepsCodeCanonical : Obligations.StepKeepsCodeCanonical :=
  fun _ _ h => nextMove_keeps (P := fun u => codeWf u.code = true)
    (turns := fun _ _ => id)
    (unit := fun _ _ _ => id)
    (present := fun _ _ _ => id)
    (command := fun _ _ _ hf he hs => by rw [exec_cmd_code hf he]; exact hs)
    (illegal := fun _ hs => by simpa using hs)
    (build := fun n _ => codeWf_builderMove n)
    (eager := fun _ hs => by simpa [eagerStart] using hs)
    (reset := fun _ _ _ => codeWf_nil)
    h

/-! ### A table that is not being built -/

theorem builderMove_of_not_building (n : Nat) {s : State} (h : s.romState ≠ .building) : builderMove n s = s := by
  rcases builderMove_cases n s with ⟨-, e⟩ | ⟨hb, -⟩
  · exact e
  · exact absurd hb h

theorem builderMoves_of_not_building {s : State} (h : s.romState ≠ .building) (moves : List Nat) :
    builderMoves moves s = s :=
  builderMoves_keeps (P := fun u => u = s) (fun n _ hu => (builderMove_of_not_building n (hu ▸ h)).trans hu) moves rfl

/-- A build starts only from UNINIT (20_memory.md R61). -/
theorem startBuild_of_not_uninit {s : State} (h : s.romState ≠ .uninit) : startBuild s = s := if_neg h

/-- No command changes the `ROM_STATE` of a build that has begun. -/
theorem exec_cmd_romState_of_not_uninit {i : Instr} {s t : State} (hf : i.format = .cmd32) (h : exec i s = .next t)
    (hs : s.romState ≠ .uninit) : t.romState = s.romState :=
  exec_cmd_keeps (P := fun u => u.romState = s.romState)
    (fault := fun c p _ => by simp)
    (answer := fun _ _ => id)
    (wait := fun _ => id)
    (select := fun _ _ _ _ _ => id)
    (advance := fun _ => id)
    (start := fun _ _ => by rw [startBuild_of_not_uninit hs])
    hf h rfl

/-- A table whose build has ended stays, whole, until reset. -/
theorem nextMove_keeps_ended_build {s t : State} (h : nextMove s = .next t) (hr : ¬ ResetNext s)
    (hu : s.romState ≠ .uninit) (hb : s.romState ≠ .building) : t.romState = s.romState ∧ t.code = s.code :=
  nextMove_keeps (P := fun u => u.romState = s.romState ∧ u.code = s.code)
    (turns := fun _ _ => id)
    (unit := fun _ _ _ => id)
    (present := fun _ _ _ => id)
    (command := fun _ _ _ hf he ⟨hrom, hcode⟩ =>
      ⟨(exec_cmd_romState_of_not_uninit hf he (hrom ▸ hu)).trans hrom, (exec_cmd_code hf he).trans hcode⟩)
    (illegal := fun _ hs => by simpa using hs)
    (build := fun n _ ⟨hrom, hcode⟩ => by
      rw [builderMove_of_not_building n (hrom ▸ hb)]; exact ⟨hrom, hcode⟩)
    (eager := fun _ ⟨hrom, hcode⟩ => by
      rw [eagerStart, startBuild_of_not_uninit (hrom ▸ hu)]; exact ⟨hrom, hcode⟩)
    (reset := fun hrst => absurd hrst hr)
    h ⟨rfl, rfl⟩

/-- Settles O32: the builder moves only in BUILDING, a build starts only from UNINIT, and no command writes. -/
theorem builtTableIsConstant : Obligations.BuiltTableIsConstant := by
  intro s t h hr hended
  have hu : s.romState ≠ .uninit := by rcases hended with e | e <;> simp [e]
  have hb : s.romState ≠ .building := by rcases hended with e | e <;> simp [e]
  obtain ⟨hrom, hcode⟩ := nextMove_keeps_ended_build h hr hu hb
  exact ⟨hrom, fun a => by rw [hcode]⟩

/-! ### Who writes `CODE` -/

theorem hostTurn_code {s t : State} (h : hostTurn s = .next t) : t.code = s.code := by
  rcases hostTurn_cases h with ⟨-, -, rfl⟩ | ⟨w, -, ⟨i, -, hf, he⟩ | ⟨-, rfl⟩⟩
  · rfl
  · exact (exec_cmd_code hf he).trans (presentNext_code s)
  · simp

theorem lfsrTurn_code {k : Nat} {rst : Bool} {c : Ctl} {s t : State} (h : lfsrTurn k rst c s = .next t) :
    t.code = s.code := by
  obtain ⟨i, hf, -, -, he⟩ := lfsrTurn_cases h
  obtain ⟨u, -, -, -, v, -, -, rfl⟩ := exec_ctl_cases hf he
  rfl

/-- Settles O33: the eager start and every turn but the builder's leave `CODE`; the builder's does outside BUILDING. -/
theorem onlyTheBuilderWritesCode : Obligations.OnlyTheBuilderWritesCode := by
  intro s t h hr hb a
  suffices hcode : t.code = s.code by rw [hcode]
  rcases step_cases h with ⟨-, -, rfl⟩ | ⟨-, rfl⟩ | ⟨u, ts, hturns, hu⟩
  · exact startBuild_code s
  · rfl
  · cases u with
    | host => exact (hostTurn_code hu).trans rfl
    | builder first more =>
      have hnot : ({ s with turns := ts } : State).romState ≠ .building := hb ⟨first, more, by simp [hturns]⟩
      cases hu
      rw [builderStep, builderMoves_of_not_building hnot]
    | lfsr k rst c => exact (lfsrTurn_code hu).trans rfl
    | rst => exact absurd (by simp [ResetNext, hturns]) hr

/-! ### The addresses of `CODE` -/

/-- Settles O40: the satellite is the quotient of the address by 1023, the chip its remainder. -/
theorem codeAddressesOneToOne : Obligations.CodeAddressesOneToOne := by
  unfold Obligations.CodeAddressesOneToOne codeAddr
  refine ⟨fun p q i j hi hj h => ?injective, fun a ha => ?onto, fun p i hi => ?bounded⟩
  case injective => rw [Fin.ext_iff]; omega
  case onto => exact ⟨⟨a / 1023, by omega⟩, a % 1023, by omega, by simp only; omega⟩
  case bounded => omega

end Sys2Proof.Machine
end

section
/-! The builder and `CAGEN` share no state but the error latch (20_memory.md R65). -/

namespace Sys2Proof.Machine

/-! ### What the builder writes -/

/-- `s` with `ROM_STATE`, `CODE`, the latch and the builder's own registers as they are in `t`. -/
def withBuilderSide (s t : State) : State :=
  { s with
    romState := t.romState, code := t.code, err := t.err, errCode := t.errCode, errPrn := t.errPrn
    b1 := t.b1, b2 := t.b2, b2Out := t.b2Out, cursor := t.cursor }

theorem latch_eq_withBuilderSide (c : FaultCode) (p : BitVec 6) (s : State) :
    latch c p s = withBuilderSide s (latch c p s) := by
  unfold latch
  split <;> rfl

theorem builderMove_eq_withBuilderSide (n : Nat) (s : State) :
    builderMove n s = withBuilderSide s (builderMove n s) := by
  rcases builderMove_cases n s with
    ⟨-, e⟩ | ⟨-, ⟨k, c, -, -, e⟩ | ⟨k, -, -, e⟩ | ⟨k, -, e⟩ | ⟨k, i, -, e⟩ | ⟨-, e⟩⟩ <;> rw [e]
  case inr.inl => exact congrArg (fun u : State => { u with romState := .failed }) (latch_eq_withBuilderSide c _ s)
  all_goals rfl

theorem builderMoves_eq_withBuilderSide (moves : List Nat) (s : State) :
    builderMoves moves s = withBuilderSide s (builderMoves moves s) :=
  builderMoves_keeps (P := fun u => u = withBuilderSide s u)
    (fun n u hu =>
      calc builderMove n u
        _ = withBuilderSide u (builderMove n u) := builderMove_eq_withBuilderSide n u
        _ = withBuilderSide (withBuilderSide s u) (builderMove n u) := by rw [← hu]
        _ = withBuilderSide s (builderMove n u) := rfl)
    moves rfl

/-- Settles O38: a builder's turn is its moves, and each move writes the builder's side alone. -/
theorem builderIsIsolated : Obligations.BuilderIsIsolated :=
  ⟨fun _ _ _ _ he ht => step_of_turn he ht, fun s moves => builderMoves_eq_withBuilderSide moves s⟩

/-! ### What a `CA` command writes -/

/-- The instructions of `CAGEN` (41_ca_generator.md R123 to R125). -/
def IsCaCommand (i : Instr) : Prop := (∃ prn, i = .caSel prn) ∨ i = .caStep ∨ ∃ u, i = .caRdst u

/-- What a `CA` command changes, but for the latch: `CAGEN`'s registers, the port and the response. -/
def caSide (s : State) : Stages × Stages × TapMask × Prn × BitVec 10 × Option Word × Option Response :=
  (s.g1, s.g2, s.g2Out, s.selPrn, s.chipCnt, s.port, s.rsp)

/-- The states differ at most in `caSide` and the latch. -/
def SameOutsideCa (s t : State) : Prop :=
  SameOutsideCommands s t ∧ t.romState = s.romState ∧ t.cursor = s.cursor

theorem exec_caCommand_sameOutsideCa {i : Instr} {s t : State} (hi : IsCaCommand i) (h : exec i s = .next t) :
    SameOutsideCa s t := by
  rcases hi with ⟨prn, rfl⟩ | rfl | ⟨u, rfl⟩ <;>
    exact ⟨exec_cmd_sameOutsideCommands rfl h, exec_cmd_romState rfl h nofun nofun⟩

/-- States that agree outside `caSide` and in it are the same but for the latch. -/
theorem eq_but_latch {s t u : State} (ht : SameOutsideCa s t) (hu : SameOutsideCa s u) (hca : caSide u = caSide t) :
    u = { t with err := u.err, errCode := u.errCode, errPrn := u.errPrn } := by
  cases s; cases t; cases u
  simp_all [SameOutsideCa, SameOutsideCommands, caSide]

/-! ### Neither reads what the other writes -/

theorem caSide_raiseFault_congr {s t : State} (c : FaultCode) (p : BitVec 6) (h : caSide s = caSide t) :
    caSide (raiseFault c p s) = caSide (raiseFault c p t) := by
  simp_all [caSide]

/-- What a `CA` command leaves in `caSide` does not depend on the builder's side. -/
theorem exec_caCommand_withBuilderSide {i : Instr} (hi : IsCaCommand i) (s b : State) :
    ∃ t u, exec i s = .next t ∧ exec i (withBuilderSide s b) = .next u ∧ caSide u = caSide t := by
  rcases hi with ⟨prn, rfl⟩ | rfl | ⟨u, rfl⟩ <;> simp only [exec]
  case inl =>
    have hentry : ∀ sat, tapEntry (withBuilderSide s b) sat = tapEntry s sat := fun _ => rfl
    simp only [execCaSel, hentry]
    cases satOfPrn prn with
    | none => exact ⟨_, _, rfl, rfl, caSide_raiseFault_congr _ _ rfl⟩
    | some sat =>
      simp only
      cases checkEntry (tapEntry s sat) with
      | none => exact ⟨_, _, rfl, rfl, rfl⟩
      | some c => exact ⟨_, _, rfl, rfl, caSide_raiseFault_congr _ _ rfl⟩
  case inr.inl =>
    have hsel : (withBuilderSide s b).selPrn = s.selPrn := rfl
    simp only [execCaStep, hsel]
    split
    · exact ⟨_, _, rfl, rfl, caSide_raiseFault_congr _ _ rfl⟩
    · exact ⟨_, _, rfl, rfl, rfl⟩
  case inr.inr => exact ⟨_, _, rfl, rfl, rfl⟩

/-- A move of the builder reads nothing of `caSide`, and the latch only to decide what stays in the latch. -/
theorem builderMove_sameOutsideCa (n : Nat) {s t : State} (h : SameOutsideCa s t) :
    SameOutsideCa (builderMove n s) (builderMove n t) := by
  have hsame := h
  obtain ⟨⟨hcfg, hcode, hb1, hb2, hb2Out, hlfsrs, hlfsrAt, hqueue, hturns, heager⟩, hrom, hcursor⟩ := h
  have hentry : ∀ sat, tapEntry t sat = tapEntry s sat := fun sat => by rw [tapEntry, tapEntry, hcfg]
  unfold builderMove
  rw [hrom, hcursor]
  split
  case h_1 =>
    split
    case h_1 k =>
      unfold builderCheck
      rw [hentry]
      split <;> simp [SameOutsideCa, SameOutsideCommands, *]
    all_goals simp [SameOutsideCa, SameOutsideCommands, *]
  all_goals exact hsame

theorem builderMoves_sameOutsideCa (moves : List Nat) : ∀ {s t : State}, SameOutsideCa s t →
    SameOutsideCa (builderMoves moves s) (builderMoves moves t) := by
  induction moves with
  | nil => exact id
  | cons n rest ih => exact fun h => ih (builderMove_sameOutsideCa n h)

theorem caSide_builderMoves (moves : List Nat) (s : State) : caSide (builderMoves moves s) = caSide s := by
  rw [builderMoves_eq_withBuilderSide]
  rfl

/-- Settles O39: both orders agree outside `caSide`, where the command writes nothing, and in it, where the builder
writes nothing. -/
theorem caCommandsCommuteWithBuild : Obligations.CaCommandsCommuteWithBuild := by
  intro i s moves hi
  obtain ⟨t, u, ht, hu, hca⟩ := exec_caCommand_withBuilderSide hi s (builderMoves moves s)
  rw [← builderMoves_eq_withBuilderSide] at hu
  exact ⟨t, u, ht, hu, eq_but_latch
    (builderMoves_sameOutsideCa moves (exec_caCommand_sameOutsideCa hi ht))
    (exec_caCommand_sameOutsideCa hi hu)
    (hca.trans (caSide_builderMoves moves t).symm)⟩

end Sys2Proof.Machine
end

section
/-! The decoder of the command port as one relation of rows, words and instructions (30_encoding.md R76 to R80), and
what decoding says of encoding. -/

namespace Sys2Proof

open Sys2Proof.Safety

/-! ### Which instruction a row of the opcode map reads from a word -/

/-- Row `r` reads word `w` as `i`: the row's instruction, its operands the fields of `w` (30_encoding.md R77). Whether
`w` has the row's match under its mask is not said. -/
inductive RowReads (w : Word) : CmdRow → Instr → Prop where
  | nop : RowReads w rowNop .nop
  | caSel {prn : Prn} (hprn : prnField w = prn) : RowReads w rowCaSel (.caSel prn)
  | caStep : RowReads w rowCaStep .caStep
  | caRdst {u : BitVec 1} (hu : uField w = u) : RowReads w rowCaRdst (.caRdst u)
  | romBuild : RowReads w rowRomBuild .romBuild
  | romRead {prn : Prn} {idx : ChipIdx} (hprn : prnField w = prn) (hidx : idxField w = idx) :
      RowReads w rowRomRead (.romRead prn idx)
  | tapRead {prn : Prn} (hprn : prnField w = prn) : RowReads w rowTapRead (.tapRead prn)
  | status : RowReads w rowStatus .status

theorem RowReads.mem_cmdRows {w : Word} {r : CmdRow} {i : Instr} (h : RowReads w r i) : r ∈ cmdRows := by
  cases h <;> simp [cmdRows]

theorem RowReads.mnemonic_eq {w : Word} {r : CmdRow} {i : Instr} (h : RowReads w r i) : i.mnemonic = r.mnemonic := by
  cases h <;> rfl

theorem exists_rowReads {r : CmdRow} (hr : r ∈ cmdRows) (w : Word) : ∃ i, RowReads w r i := by
  simp only [cmdRows, List.mem_cons, List.not_mem_nil, or_false] at hr
  rcases hr with rfl | rfl | rfl | rfl | rfl | rfl | rfl | rfl
  exacts [⟨_, .nop⟩, ⟨_, .caSel rfl⟩, ⟨_, .caStep⟩, ⟨_, .caRdst rfl⟩, ⟨_, .romBuild⟩, ⟨_, .romRead rfl rfl⟩,
    ⟨_, .tapRead rfl⟩, ⟨_, .status⟩]

theorem cmdRow_eq_of_mnemonic_eq :
    ∀ r ∈ cmdRows, ∀ r' ∈ cmdRows, r.mnemonic = r'.mnemonic → r = r' := by decide

/-! ### What a row's match says of a word -/

/-- A field that a mask covers is the match's. -/
theorem extractLsb'_of_and_eq {w m p : Word} {start len : Nat} (h : w &&& m = p)
    (hm : m.extractLsb' start len = BitVec.allOnes len) : w.extractLsb' start len = p.extractLsb' start len := by
  rw [← h, BitVec.extractLsb'_and, hm, BitVec.and_allOnes]

/-- Every row fixes `OP` (30_encoding.md R77) and holds the reserved bits at 0 (R76). -/
theorem cmdRow_fixes :
    ∀ r ∈ cmdRows, r.mask.extractLsb' 28 4 = BitVec.allOnes 4 ∧
      (r.mask.extractLsb' 22 6 = BitVec.allOnes 6 ∧ r.pattern.extractLsb' 22 6 = 0) ∧
      (r.mask.extractLsb' 10 6 = BitVec.allOnes 6 ∧ r.pattern.extractLsb' 10 6 = 0) := by decide

theorem opField_of_match {w : Word} {r : CmdRow} (hr : r ∈ cmdRows) (h : w &&& r.mask = r.pattern) :
    opField w = opField r.pattern :=
  extractLsb'_of_and_eq h (cmdRow_fixes r hr).1

/-- A word that has a row's match is the row's `OP` and its own two fields. -/
theorem commandWord_of_match {w : Word} {r : CmdRow} (hr : r ∈ cmdRows) (h : w &&& r.mask = r.pattern) :
    commandWord (opField r.pattern) (prnField w) (idxField w) = w := by
  obtain ⟨-, ⟨hhigh, hhigh0⟩, ⟨hlow, hlow0⟩⟩ := cmdRow_fixes r hr
  rw [← opField_of_match hr h]
  exact commandWord_of_fields w ((extractLsb'_of_and_eq h hhigh).trans hhigh0)
    ((extractLsb'_of_and_eq h hlow).trans hlow0)

theorem prnField_of_match {w : Word} {r : CmdRow} (h : w &&& r.mask = r.pattern)
    (hm : prnField r.mask = BitVec.allOnes 6) : prnField w = prnField r.pattern :=
  extractLsb'_of_and_eq h hm

theorem idxField_of_match {w : Word} {r : CmdRow} (h : w &&& r.mask = r.pattern)
    (hm : idxField r.mask = BitVec.allOnes 10) : idxField w = idxField r.pattern :=
  extractLsb'_of_and_eq h hm

/-- The `IDX` bits of a word are its `U` bit and the nine above it (30_encoding.md R75). -/
theorem idxField_eq_append (w : Word) : idxField w = w.extractLsb' 1 9 ++ uField w :=
  (BitVec.extractLsb'_append_extractLsb'_eq_extractLsb' (x := w) (start₁ := 0) (len₁ := 1) (len₂ := 9) rfl).symm

theorem uField_commandWord (op : BitVec 4) (prn : Prn) (u : BitVec 1) :
    uField (commandWord op prn (0#9 ++ u)) = u := by
  have hidx := (idxField_eq_append (commandWord op prn (0#9 ++ u))).symm.trans (idxField_commandWord op prn _)
  simpa only [BitVec.extractLsb'_append_eq_right] using congrArg (BitVec.extractLsb' 0 1) hidx

/-- A word that has a row's match is the encoding of what the row reads from it: the bits the instruction does not use
as a field are the match's, all 0 (30_encoding.md R76). -/
theorem RowReads.encode_of_match {w : Word} {r : CmdRow} {i : Instr} (h : RowReads w r i)
    (hw : w &&& r.mask = r.pattern) : encode i = .cmd32 w := by
  have hword := commandWord_of_match h.mem_cmdRows hw
  refine Eq.trans ?_ (congrArg Bits.cmd32 hword)
  cases h with
  | nop | caStep | romBuild | status => rw [prnField_of_match hw rfl, idxField_of_match hw rfl]; rfl
  | caSel hprn | tapRead hprn => rw [hprn, idxField_of_match hw rfl]; rfl
  | caRdst hu =>
    have hhigh : w.extractLsb' 1 9 = 0#9 := extractLsb'_of_and_eq hw rfl
    rw [prnField_of_match hw rfl, idxField_eq_append, hhigh, hu]; rfl
  | romRead hprn hidx => rw [hprn, hidx]; rfl

theorem fitsRow : ∀ i : Instr, Laws.FitsRow.Statement i
  | .nop => Laws.FitsRow.nop
  | .caSel prn => Laws.FitsRow.caSel prn
  | .caStep => Laws.FitsRow.caStep
  | .caRdst u => Laws.FitsRow.caRdst u
  | .romBuild => Laws.FitsRow.romBuild
  | .romRead prn idx => Laws.FitsRow.romRead prn idx
  | .tapRead prn => Laws.FitsRow.tapRead prn
  | .status => Laws.FitsRow.status
  | .lfsrHold => Laws.FitsRow.lfsrHold
  | .lfsrStep => Laws.FitsRow.lfsrStep
  | .lfsrInit => Laws.FitsRow.lfsrInit

/-- The encoding of an instruction has the match of the row that reads it. -/
theorem RowReads.match_of_encode {w : Word} {r : CmdRow} {i : Instr} (h : RowReads w r i)
    (hw : encode i = .cmd32 w) : w &&& r.mask = r.pattern := by
  have hfits := fitsRow i
  simp only [Laws.FitsRow.Statement, hw] at hfits
  obtain ⟨r', hr', hmnemonic, hmatch⟩ := hfits
  rwa [cmdRow_eq_of_mnemonic_eq r h.mem_cmdRows r' hr' (h.mnemonic_eq.symm.trans hmnemonic.symm)]

/-! ### The decoder of the command port -/

theorem matchRow_eq_ok_iff {w : Word} {r : CmdRow} {i j : Instr} :
    matchRow w r i = .ok j ↔ w &&& r.mask = r.pattern ∧ i = j := by
  unfold matchRow
  split <;> simp [*]

/-- The decoder asks the row that has the word's `OP`, and no other; with no such row the `OP` is reserved
(30_encoding.md R77, R78). -/
theorem decodeCmd_cases (w : Word) :
    (∃ r i, RowReads w r i ∧ decodeCmd w = matchRow w r i) ∨ decodeCmd w = .error (.reservedOp (opField w)) := by
  unfold decodeCmd
  split
  · exact .inl ⟨_, _, .nop, rfl⟩
  · exact .inl ⟨_, _, .caSel rfl, rfl⟩
  · exact .inl ⟨_, _, .caStep, rfl⟩
  · exact .inl ⟨_, _, .caRdst rfl, rfl⟩
  · exact .inl ⟨_, _, .romBuild, rfl⟩
  · exact .inl ⟨_, _, .romRead rfl rfl, rfl⟩
  · exact .inl ⟨_, _, .tapRead rfl, rfl⟩
  · exact .inl ⟨_, _, .status, rfl⟩
  · exact .inr rfl

theorem RowReads.decodeCmd_eq_matchRow {w : Word} {r : CmdRow} {i : Instr} (h : RowReads w r i)
    (hop : opField w = opField r.pattern) : decodeCmd w = matchRow w r i := by
  rw [decodeCmd, hop]
  cases h <;> subst_vars <;> rfl

/-- Decoding a command word is R77's mask and match: some row reads the word as the instruction, and the word has that
row's match. -/
theorem decodeCmd_eq_ok_iff {w : Word} {i : Instr} :
    decodeCmd w = .ok i ↔ ∃ r, RowReads w r i ∧ w &&& r.mask = r.pattern := by
  constructor
  · intro h
    rcases decodeCmd_cases w with ⟨r, j, hreads, he⟩ | he
    · obtain ⟨hw, rfl⟩ := matchRow_eq_ok_iff.mp (he.symm.trans h)
      exact ⟨r, hreads, hw⟩
    · cases he.symm.trans h
  · rintro ⟨r, hreads, hw⟩
    rw [hreads.decodeCmd_eq_matchRow (opField_of_match hreads.mem_cmdRows hw)]
    exact matchRow_eq_ok_iff.mpr ⟨hw, rfl⟩

/-- An instruction that a row reads from its own encoding is decoded from it. -/
theorem RowReads.decode_encode {w : Word} {r : CmdRow} {i : Instr} (h : RowReads w r i) (hw : encode i = .cmd32 w) :
    decode (encode i) = .ok i := by
  rw [hw]
  exact decodeCmd_eq_ok_iff.mpr ⟨r, h, h.match_of_encode hw⟩

/-! ### Decoding and encoding -/

/-- Settles O1: each command's row reads the command's operands back from the fields of its encoding. -/
theorem decodeEncodeRoundTrip : Obligations.DecodeEncodeRoundTrip := by
  intro i
  cases i with
  | nop => exact RowReads.nop.decode_encode rfl
  | caSel prn => exact (RowReads.caSel (prnField_commandWord 1 prn 0)).decode_encode rfl
  | caStep => exact RowReads.caStep.decode_encode rfl
  | caRdst u => exact (RowReads.caRdst (uField_commandWord 3 0 u)).decode_encode rfl
  | romBuild => exact RowReads.romBuild.decode_encode rfl
  | romRead prn idx =>
    exact (RowReads.romRead (prnField_commandWord 5 prn idx) (idxField_commandWord 5 prn idx)).decode_encode rfl
  | tapRead prn => exact (RowReads.tapRead (prnField_commandWord 6 prn 0)).decode_encode rfl
  | status => exact RowReads.status.decode_encode rfl
  | lfsrHold | lfsrStep | lfsrInit => rfl

/-- A control value that decodes is the control's encoding (30_encoding.md R83). -/
theorem encode_of_decodeCtl {c : Ctl} {i : Instr} (h : decodeCtl c = .ok i) : encode i = .lfsrCtl c := by
  unfold decodeCtl at h
  split at h <;> cases h <;> exact congrArg Bits.lfsrCtl (BitVec.eq_of_toNat_eq (Eq.symm ‹_›))

/-- Settles O2: a word that decodes has the match of the row that reads it, which leaves no bit open but the fields. -/
theorem decodedBitsReencode : Obligations.DecodedBitsReencode := by
  intro b i h
  cases b with
  | cmd32 w =>
    obtain ⟨r, hreads, hw⟩ := decodeCmd_eq_ok_iff.mp h
    exact hreads.encode_of_match hw
  | lfsrCtl c => exact encode_of_decodeCtl h

/-! ### The opcode map as printed -/

theorem opcodeMap_eq_map_cmdRows : opcodeMap = cmdRows.map fun r => (r.mnemonic, r.pattern, r.mask) := rfl

theorem match_iff_decodes_to_mnemonic {r : CmdRow} (hr : r ∈ cmdRows) (w : Word) :
    w &&& r.mask = r.pattern ↔ ∃ i, decode (.cmd32 w) = .ok i ∧ i.mnemonic = r.mnemonic := by
  constructor
  · intro hw
    obtain ⟨i, hreads⟩ := exists_rowReads hr w
    exact ⟨i, decodeCmd_eq_ok_iff.mpr ⟨r, hreads, hw⟩, hreads.mnemonic_eq⟩
  · rintro ⟨i, hi, hmnemonic⟩
    obtain ⟨r', hreads, hw⟩ := decodeCmd_eq_ok_iff.mp hi
    rwa [cmdRow_eq_of_mnemonic_eq r hr r' hreads.mem_cmdRows (hmnemonic.symm.trans hreads.mnemonic_eq)]

/-- Every row fixes bit 31 to 0 (30_encoding.md R78). -/
theorem cmdRow_bit31 : ∀ r ∈ cmdRows, r.mask.getLsbD 31 = true ∧ r.pattern.getLsbD 31 = false := by decide

theorem bit31_of_match {w : Word} {r : CmdRow} (hr : r ∈ cmdRows) (hw : w &&& r.mask = r.pattern) :
    w.getLsbD 31 = false := by
  obtain ⟨hmask, hpattern⟩ := cmdRow_bit31 r hr
  have hbit := (and_mask_eq_iff w r.mask r.pattern).mp hw 31 (by decide)
  rwa [hmask, hpattern, Bool.and_true] at hbit

/-- Settles O3: the printed rows are the decoder's, no two rows share a mnemonic, and each holds bit 31 at 0. -/
theorem commandIsMatchUnderMask : Obligations.CommandIsMatchUnderMask := by
  refine ⟨fun w entry hentry => ?rows, fun w hw i hi => ?bit31⟩
  case rows =>
    rw [opcodeMap_eq_map_cmdRows] at hentry
    obtain ⟨r, hr, rfl⟩ := List.mem_map.mp hentry
    exact match_iff_decodes_to_mnemonic hr w
  case bit31 =>
    obtain ⟨r, hreads, hmatch⟩ := decodeCmd_eq_ok_iff.mp hi
    cases hw.symm.trans (bit31_of_match hreads.mem_cmdRows hmatch)

/-- Settles O4: each word is, bit for bit, the encoding of its instruction, which decodes to it; control 11 is read by
no row. -/
theorem writtenOutWordsDecode : Obligations.WrittenOutWordsDecode :=
  ⟨decodeEncodeRoundTrip .nop, decodeEncodeRoundTrip (.caSel 32), decodeEncodeRoundTrip .caStep,
    decodeEncodeRoundTrip (.caRdst 1), decodeEncodeRoundTrip .romBuild, decodeEncodeRoundTrip (.romRead 32 1022),
    decodeEncodeRoundTrip (.tapRead 5), decodeEncodeRoundTrip .status, decodeEncodeRoundTrip .lfsrHold,
    decodeEncodeRoundTrip .lfsrStep, decodeEncodeRoundTrip .lfsrInit, rfl⟩

end Sys2Proof
end

section
/-! The words the assembler writes (30_encoding.md R85, R86). -/

namespace Sys2Proof.Machine

theorem assemble_of_wellFormed {a : AsmStmt} (h : a.wellFormed = true) : assemble a = some (asmBits a) := if_pos h

theorem assemble_of_not_wellFormed {a : AsmStmt} (h : a.wellFormed = false) : assemble a = none := by
  simp [assemble, h]

/-- A command word as the rules of R85 write it: the operation's word with the operands shifted to their places. -/
theorem commandWord_eq_or (op : BitVec 4) (prn : Prn) (idx : ChipIdx) :
    commandWord op prn idx = commandWord op 0 0 ||| prn.setWidth 32 <<< 16 ||| idx.setWidth 32 := by
  apply BitVec.eq_of_getLsbD_eq
  intro k hk
  simp only [commandWord, BitVec.getLsbD_or, BitVec.getLsbD_append, BitVec.getLsbD_shiftLeft, BitVec.getLsbD_setWidth]
  interval_cases k <;> simp

/-- An operand inside its field's width is not cut short in the field. -/
theorem setWidth_ofNat_of_lt {n k : Nat} (h : n < 2 ^ k) :
    (BitVec.ofNat k n).setWidth 32 = BitVec.ofNat 32 n := by
  apply BitVec.eq_of_toNat_eq
  simp [Nat.mod_eq_of_lt h]

theorem commandWord_ofNat (op : BitVec 4) {p i : Nat} (hp : p ≤ 63) (hi : i ≤ 1023) :
    commandWord op (BitVec.ofNat 6 p) (BitVec.ofNat 10 i) =
      commandWord op 0 0 ||| BitVec.ofNat 32 p <<< 16 ||| BitVec.ofNat 32 i := by
  rw [commandWord_eq_or, setWidth_ofNat_of_lt (by omega), setWidth_ofNat_of_lt (by omega)]

/-- A command whose one operand is the satellite. -/
theorem commandWord_ofNat_prn (op : BitVec 4) {p : Nat} (hp : p ≤ 63) :
    commandWord op (BitVec.ofNat 6 p) 0 = commandWord op 0 0 ||| BitVec.ofNat 32 p <<< 16 := by
  simpa using commandWord_ofNat op hp (Nat.zero_le 1023)

theorem encode_caSel_ofNat {p : Nat} (hp : p ≤ 63) :
    encode (.caSel (BitVec.ofNat 6 p)) = .cmd32 (0x10000000#32 ||| BitVec.ofNat 32 p <<< 16) :=
  congrArg Bits.cmd32 (commandWord_ofNat_prn 1 hp)

theorem encode_tapRead_ofNat {p : Nat} (hp : p ≤ 63) :
    encode (.tapRead (BitVec.ofNat 6 p)) = .cmd32 (0x60000000#32 ||| BitVec.ofNat 32 p <<< 16) :=
  congrArg Bits.cmd32 (commandWord_ofNat_prn 6 hp)

theorem encode_romRead_ofNat {p i : Nat} (hp : p ≤ 63) (hi : i ≤ 1023) :
    encode (.romRead (BitVec.ofNat 6 p) (BitVec.ofNat 10 i)) =
      .cmd32 (0x50000000#32 ||| BitVec.ofNat 32 p <<< 16 ||| BitVec.ofNat 32 i) :=
  congrArg Bits.cmd32 (commandWord_ofNat 5 hp hi)

theorem assemble_caSel {p : Nat} (hp : p ≤ 63) :
    assemble (.caSel p) = some [.cmd32 (0x10000000#32 ||| BitVec.ofNat 32 p <<< 16)] := by
  rw [assemble_of_wellFormed (a := .caSel p) (decide_eq_true hp), asmBits, encode_caSel_ofNat hp]

theorem assemble_tapRead {p : Nat} (hp : p ≤ 63) :
    assemble (.tapRead p) = some [.cmd32 (0x60000000#32 ||| BitVec.ofNat 32 p <<< 16)] := by
  rw [assemble_of_wellFormed (a := .tapRead p) (decide_eq_true hp), asmBits, encode_tapRead_ofNat hp]

theorem assemble_romRead {p i : Nat} (hp : p ≤ 63) (hi : i ≤ 1023) :
    assemble (.romRead p i) =
      some [.cmd32 (0x50000000#32 ||| BitVec.ofNat 32 p <<< 16 ||| BitVec.ofNat 32 i)] := by
  rw [assemble_of_wellFormed (by simp [AsmStmt.wellFormed, hp, hi]), asmBits, encode_romRead_ofNat hp hi]

theorem assemble_caRun {p : Nat} (hp : p ≤ 63) (n : Nat) :
    assemble (.caRun p n) =
      some (.cmd32 (0x10000000#32 ||| BitVec.ofNat 32 p <<< 16) :: List.replicate n (.cmd32 0x20000000)) := by
  rw [assemble_of_wellFormed (a := .caRun p n) (decide_eq_true hp), asmBits, encode_caSel_ofNat hp]
  rfl

/-- `ca.code` is `ca.run` with one `ca.step` for each chip (30_encoding.md R86). -/
theorem assemble_caCode {p : Nat} (hp : p ≤ 63) : assemble (.caCode p) = assemble (.caRun p 1023) := by
  rw [assemble_of_wellFormed (a := .caCode p) (decide_eq_true hp),
    assemble_of_wellFormed (a := .caRun p 1023) (decide_eq_true hp), asmBits, asmBits]

theorem assemble_caSel_of_too_wide {p : Nat} (hp : 63 < p) : assemble (.caSel p) = none :=
  assemble_of_not_wellFormed (decide_eq_false (Nat.not_le.mpr hp))

theorem assemble_tapRead_of_too_wide {p : Nat} (hp : 63 < p) : assemble (.tapRead p) = none :=
  assemble_of_not_wellFormed (decide_eq_false (Nat.not_le.mpr hp))

/-- The assembler refuses a satellite or a chip index outside its field's width (30_encoding.md R85). -/
theorem assemble_romRead_of_too_wide {p i : Nat} (h : 63 < p ∨ 1023 < i) : assemble (.romRead p i) = none := by
  apply assemble_of_not_wellFormed
  simp only [AsmStmt.wellFormed, Bool.and_eq_false_iff, decide_eq_false_iff_not]
  omega

/-- Settles O5: a statement in its field's width stands for its own words, one outside it for none. -/
theorem assemblerWords : Obligations.AssemblerWords :=
  ⟨rfl, fun _ hp => assemble_caSel hp, rfl, rfl, rfl, rfl, fun _ hp _ hi => assemble_romRead hp hi,
    fun _ hp => assemble_tapRead hp, rfl, fun _ hw => assemble_of_wellFormed (decide_eq_true hw),
    fun _ hp => ⟨assemble_caSel_of_too_wide hp, assemble_tapRead_of_too_wide hp⟩,
    fun _ _ h => assemble_romRead_of_too_wide h, fun _ hp n => assemble_caRun hp n, fun _ hp => assemble_caCode hp,
    rfl⟩

end Sys2Proof.Machine
end

section
/-! Parity and the shift of a register (40_lfsr.md R101, R104, R109). -/

namespace Sys2Proof.Machine

/-! ### Parity -/

/-- An XOR over a list is 1 exactly when an odd number of its elements count. -/
theorem foldl_xor_toNat {α : Type} (p : α → Bool) (ks : List α) (b : Bool) :
    (ks.foldl (fun b k => b ^^ p k) b).toNat = (b.toNat + (ks.filter p).length) % 2 := by
  induction ks generalizing b with
  | nil => cases b <;> rfl
  | cons k ks ih =>
    rw [List.foldl_cons, ih]
    cases b <;> cases hk : p k <;> simp [hk] <;> omega

/-- Parity counts the selected stages that hold 1, modulo 2 (40_lfsr.md R101). -/
theorem parity_toNat (s : Stages) (t : TapMask) :
    (parity s t).toNat = (positions.filter fun k => stage t k && stage s k).length % 2 := by
  simp only [parity, BitVec.toNat_ofBool, foldl_xor_toNat, Bool.toNat_false, Nat.zero_add]

/-- Position `b + 1` is selected and holds 1 exactly when bit `b` of the masked word is 1 (20_memory.md R53). -/
theorem stage_and_stage (s : Stages) (t : TapMask) (b : Nat) :
    (stage t (b + 1) && stage s (b + 1)) = (s &&& t).getLsbD b := by
  simp [stage, Bool.and_comm]

/-- Settles O14: the XOR over the positions is their count modulo 2, and position `b + 1` is bit `b`. -/
theorem parityIsOddCount : Obligations.ParityIsOddCount := by
  intro s t
  have hbits : (positions.filter fun k => stage t k && stage s k).length =
      ((List.range 10).filter fun b => (s &&& t).getLsbD b).length := by
    have hpos : positions = (List.range 10).map (· + 1) := by decide
    simp only [hpos, List.filter_map, List.length_map, Function.comp_def, stage_and_stage]
  exact ⟨parity_toNat s t, hbits ▸ parity_toNat s t⟩

theorem parity_zero (t : TapMask) : parity 0 t = 0 :=
  BitVec.eq_of_toNat_eq (by simp [parity_toNat, stage])

/-! ### Where the shift is one to one -/

/-- A register is its ten stages. -/
theorem eq_of_stage_eq {s s' : Stages} (h : ∀ k, 1 ≤ k → k ≤ 10 → stage s k = stage s' k) : s = s' :=
  BitVec.eq_of_getLsbD_eq fun b hb => by simpa [stage] using h (b + 1) (by omega) (by omega)

/-- The two registers agree in every stage that a shift keeps: all but stage 10. -/
def AgreeBelow10 (s s' : Stages) : Prop := ∀ k, 1 ≤ k → k ≤ 9 → stage s k = stage s' k

/-- Registers that differ at most in stage 10 have the same parity exactly when they agree in stage 10 or it is no
tap. -/
theorem parity_eq_iff {s s' : Stages} (t : TapMask) (h : AgreeBelow10 s s') :
    parity s t = parity s' t ↔ (stage t 10 && stage s 10) = (stage t 10 && stage s' 10) := by
  have hsplit : positions = List.range' 1 9 ++ [10] := rfl
  have hlow : (List.range' 1 9).foldl (fun b k => b ^^ (stage t k && stage s k)) false =
      (List.range' 1 9).foldl (fun b k => b ^^ (stage t k && stage s' k)) false :=
    List.foldl_ext _ _ _ fun b k hk => by
      have hk' := List.mem_range'_1.mp hk
      rw [h k (by omega) (by omega)]
  simp only [parity, hsplit, List.foldl_append, List.foldl_cons, List.foldl_nil, hlow,
    BitVec.ofBool_eq_iff_eq, Bool.xor_right_inj]

/-- A shift keeps every stage but stage 10, and the feedback. -/
theorem shift_eq_iff {fb : TapMask} {s s' : Stages} :
    shift fb s = shift fb s' ↔ AgreeBelow10 s s' ∧ parity s fb = parity s' fb := by
  refine ⟨fun h => ⟨fun k h1 h9 => ?kept, ?feedback⟩, fun ⟨hlow, hfb⟩ => eq_of_stage_eq fun k h1 h10 => ?stages⟩
  case kept =>
    have hk := congrArg (stage · (k + 1)) h
    rwa [stage_shift fb s (by omega) (by omega), stage_shift fb s' (by omega) (by omega), Nat.add_sub_cancel] at hk
  case feedback => rw [← stage_shift_one, h, stage_shift_one]
  case stages =>
    obtain rfl | h2 : k = 1 ∨ 2 ≤ k := by omega
    · rw [← BitVec.ofBool_eq_iff_eq, stage_shift_one, stage_shift_one, hfb]
    · rw [stage_shift fb s h2 h10, stage_shift fb s' h2 h10]
      exact hlow (k - 1) (by omega) (by omega)

theorem shift_injective_of_tap10 {fb : TapMask} (hfb : stage fb 10 = true) : Function.Injective (shift fb) := by
  intro s s' h
  obtain ⟨hlow, hpar⟩ := shift_eq_iff.mp h
  have h10 : stage s 10 = stage s' 10 := by simpa [hfb] using (parity_eq_iff fb hlow).mp hpar
  refine eq_of_stage_eq fun k h1 hk => ?_
  obtain rfl | h9 : k = 10 ∨ k ≤ 9 := by omega
  · exact h10
  · exact hlow k h1 h9

/-- All zero, and 1 in stage 10 alone. -/
theorem shift_not_injective_of_no_tap10 {fb : TapMask} (hfb : stage fb 10 = false) :
    ¬ Function.Injective (shift fb) := by
  intro hinj
  have hlow : AgreeBelow10 0 0x200 := by unfold AgreeBelow10; decide
  have hpar : parity 0 fb = parity 0x200 fb := (parity_eq_iff fb hlow).mpr (by simp [hfb])
  exact absurd (hinj (shift_eq_iff.mpr ⟨hlow, hpar⟩)) (by decide)

theorem shift_zero (fb : TapMask) : shift fb 0 = 0 := by rw [shift, parity_zero]; rfl

/-- Settles O18: a shift loses stage 10 alone, and the feedback tells it exactly when 10 is a tap. -/
theorem stepIsOneToOneWithTap10 : Obligations.StepIsOneToOneWithTap10 :=
  ⟨fun _ => shift_injective_of_tap10, fun _ => shift_not_injective_of_no_tap10, shift_zero⟩

/-! ### The period -/

theorem shiftN_eq_iterate (fb : TapMask) (n : Nat) (s : Stages) : shiftN fb n s = (shift fb)^[n] s := by
  induction n with
  | zero => rfl
  | succ n ih => rw [Function.iterate_succ_apply', shiftN, ih]

/-- `1023 = 3 * 11 * 31`: a proper divisor divides the cofactor of one of the three primes. -/
theorem proper_divisor_of_1023 : ∀ d ∈ Nat.properDivisors 1023, d ∣ 341 ∨ d ∣ 93 ∨ d ∣ 33 := by
  simp [Nat.properDivisors_ofNat]

/-- A register that returns after 1023 shifts, and after none of the cofactors of the primes of 1023, first returns
after 1023: the least period divides 1023, and is no proper divisor. -/
theorem first_return_at_1023 {fb : TapMask} {s : Stages} (hret : shiftN fb 1023 s = s) (h341 : shiftN fb 341 s ≠ s)
    (h93 : shiftN fb 93 s ≠ s) (h33 : shiftN fb 33 s ≠ s) {n : Nat} (hpos : 0 < n) (hlt : n < 1023) :
    shiftN fb n s ≠ s := by
  rw [shiftN_eq_iterate] at *
  intro hn
  have hdvd : Function.minimalPeriod (shift fb) s ∣ 1023 := Function.IsPeriodicPt.minimalPeriod_dvd hret
  have hle : Function.minimalPeriod (shift fb) s ≤ n := Function.IsPeriodicPt.minimalPeriod_le hpos hn
  have hmultiple : ∀ m, Function.minimalPeriod (shift fb) s ∣ m → (shift fb)^[m] s = s :=
    fun _ => Function.isPeriodicPt_iff_minimalPeriod_dvd.mpr
  rcases proper_divisor_of_1023 _ (Nat.mem_properDivisors.mpr ⟨hdvd, by omega⟩) with h | h | h
  · exact h341 (hmultiple _ h)
  · exact h93 (hmultiple _ h)
  · exact h33 (hmultiple _ h)

/-- `G1` returns to all ones after 1023 steps (40_lfsr.md R109). -/
theorem shiftN_g1FbTaps_1023 : shiftN g1FbTaps 1023 seed = seed := by decide +kernel

/-- `G2` returns to all ones after 1023 steps (40_lfsr.md R109). -/
theorem shiftN_g2FbTaps_1023 : shiftN g2FbTaps 1023 seed = seed := by decide +kernel

/-- Settles O17: 1023 is a period of both, and no cofactor of a prime of 1023 is. -/
theorem periodOf1023 : Obligations.PeriodOf1023 := by
  intro fb hfb
  obtain rfl | rfl : fb = g1FbTaps ∨ fb = g2FbTaps := by simpa [g1FbTaps, g2FbTaps] using hfb
  · exact ⟨shiftN_g1FbTaps_1023, fun n => first_return_at_1023 shiftN_g1FbTaps_1023
      (by decide +kernel) (by decide +kernel) (by decide +kernel)⟩
  · exact ⟨shiftN_g2FbTaps_1023, fun n => first_return_at_1023 shiftN_g2FbTaps_1023
      (by decide +kernel) (by decide +kernel) (by decide +kernel)⟩

end Sys2Proof.Machine
end

section
/-! The controls of a standalone unit, and runs of its clocks (40_lfsr.md R103 to R112). -/

namespace Sys2Proof.Machine

/-! ### One control -/

/-- Settles O48: a control that completes has set the addressed element of the list. -/
theorem controlFrame : Obligations.ControlFrame := by
  intro i s t hf h
  obtain ⟨u, -, -, -, v, -, -, rfl⟩ := exec_ctl_cases hf h
  exact ⟨rfl, List.length_set, fun k hk => List.getElem?_set_ne (Ne.symm hk)⟩

/-- A control that decodes runs with its unit addressed. -/
theorem lfsrTurn_of_decode {c : Ctl} {i : Instr} (hd : decode (.lfsrCtl c) = .ok i) (k : Nat) (s : State) :
    lfsrTurn k false c s = exec i { s with lfsrAt := k } := by
  simp [lfsrTurn, hd]

/-- The unit's `rst` acts as `LFSR.INIT` (70_reset_and_hazards.md R200). -/
theorem lfsrTurn_of_rst (k : Nat) (c : Ctl) (s : State) :
    lfsrTurn k true c s = exec .lfsrInit { s with lfsrAt := k } := rfl

/-- Settles O7: the step is the unit's turn, and the turn runs the decoded control or the reset. -/
theorem controlStepRunsDecodedControl : Obligations.ControlStepRunsDecodedControl :=
  ⟨fun _ k _ _ _ he ht hd => (step_of_turn he ht).trans (lfsrTurn_of_decode hd k _),
    fun _ k c _ he ht => (step_of_turn he ht).trans (lfsrTurn_of_rst k c _)⟩

/-- Settles O11: the operation on a built unit completes, and the ports do not read the bit emitted. -/
theorem lfsrHoldKeepsTheRegister : Obligations.LfsrHoldKeepsTheRegister :=
  fun _ u hu ho hf => ⟨u.held, rfl, onUnit_built hu ho hf, rfl, rfl, rfl⟩

/-- Settles O12: the operation on a built unit completes, and each stage of the shift is as R104 gives it. -/
theorem lfsrStepEmitsAndShifts : Obligations.LfsrStepEmitsAndShifts :=
  fun _ u hu ho hf => ⟨u.stepped, onUnit_built hu ho hf, rfl, rfl, rfl, rfl, rfl,
    fun _ h2 h10 => stage_shift u.fbTaps u.s h2 h10, stage_shift_one u.fbTaps u.s, rfl, rfl, rfl⟩

/-- Settles O13: the operation on a built unit completes with all ones. -/
theorem lfsrInitSeedsTheRegister : Obligations.LfsrInitSeedsTheRegister :=
  fun _ _ hu ho hf => onUnit_built hu ho hf

/-! ### A unit under a list of controls -/

/-- A unit after one clock with a control other than 11. -/
def LfsrUnit.clocked (c : Ctl) (u : LfsrUnit) : LfsrUnit :=
  if c = 0b00 then u.held else if c = 0b01 then u.stepped else u.seeded

@[simp] theorem LfsrUnit.clocked_outTaps (c : Ctl) (u : LfsrUnit) : (u.clocked c).outTaps = u.outTaps := by
  unfold clocked; (repeat' split) <;> rfl

@[simp] theorem LfsrUnit.clocked_fbTaps (c : Ctl) (u : LfsrUnit) : (u.clocked c).fbTaps = u.fbTaps := by
  unfold clocked; (repeat' split) <;> rfl

/-- A unit after a clock with each of the controls in turn. -/
def LfsrUnit.clockedAll (cs : List Ctl) (u : LfsrUnit) : LfsrUnit := cs.foldl (fun v c => v.clocked c) u

@[simp] theorem LfsrUnit.clockedAll_nil (u : LfsrUnit) : u.clockedAll [] = u := rfl

@[simp] theorem LfsrUnit.clockedAll_cons (c : Ctl) (cs : List Ctl) (u : LfsrUnit) :
    u.clockedAll (c :: cs) = (u.clocked c).clockedAll cs := rfl

@[simp] theorem LfsrUnit.clockedAll_append (cs ds : List Ctl) (u : LfsrUnit) :
    u.clockedAll (cs ++ ds) = (u.clockedAll cs).clockedAll ds := List.foldl_append

@[simp] theorem LfsrUnit.clockedAll_outTaps (cs : List Ctl) (u : LfsrUnit) :
    (u.clockedAll cs).outTaps = u.outTaps := by
  induction cs generalizing u with
  | nil => rfl
  | cons c cs ih => rw [clockedAll_cons, ih, clocked_outTaps]

@[simp] theorem LfsrUnit.clockedAll_fbTaps (cs : List Ctl) (u : LfsrUnit) : (u.clockedAll cs).fbTaps = u.fbTaps := by
  induction cs generalizing u with
  | nil => rfl
  | cons c cs ih => rw [clockedAll_cons, ih, clocked_fbTaps]

/-- Under HOLD and STEP alone, the register has shifted once for each STEP. -/
theorem LfsrUnit.clockedAll_s {cs : List Ctl} (hcs : ∀ c ∈ cs, c = 0b00 ∨ c = 0b01) (u : LfsrUnit) :
    (u.clockedAll cs).s = shiftN u.fbTaps (cs.count 0b01) u.s := by
  induction cs generalizing u with
  | nil => rfl
  | cons c cs ih =>
    obtain ⟨hc, hcs⟩ := List.forall_mem_cons.mp hcs
    rw [clockedAll_cons, ih hcs, clocked_fbTaps]
    rcases hc with rfl | rfl
    · rfl
    · rw [List.count_cons_self]
      exact shiftN_shift u.fbTaps _ u.s

/-! ### A run of clocks -/

/-- The turns of clocks: which unit, with which control. -/
def clockTurns (ps : List (Nat × Ctl)) : List Turn := ps.map fun p => .lfsr p.1 false p.2

/-- The controls of the clocks that are unit `j`'s. -/
def ctlsOf (j : Nat) (ps : List (Nat × Ctl)) : List Ctl := ps.filterMap fun p => if p.1 = j then some p.2 else none

theorem clockedAll_ctlsOf_cons (j : Nat) (p : Nat × Ctl) (ps : List (Nat × Ctl)) (u : LfsrUnit) :
    u.clockedAll (ctlsOf j (p :: ps)) = (if p.1 = j then u.clocked p.2 else u).clockedAll (ctlsOf j ps) := by
  by_cases hp : p.1 = j <;> simp [ctlsOf, hp]

/-- Unit `k` is there and was built: neither tap set is empty (40_lfsr.md R100). -/
def UnitBuilt (s : State) (k : Nat) : Prop := ∃ u, s.lfsrs[k]? = some u ∧ u.outTaps ≠ 0 ∧ u.fbTaps ≠ 0

/-- The state after one clock of unit `k`. -/
def clockUnit (k : Nat) (c : Ctl) (s : State) : State :=
  { s with lfsrAt := k, lfsrs := s.lfsrs.modify k (LfsrUnit.clocked c) }

/-- A clock is the one operation `onUnit`, with the effect of its control. -/
theorem lfsrTurn_eq_onUnit {c : Ctl} (hc : c ≠ 0b11) (k : Nat) (s : State) :
    lfsrTurn k false c s = onUnit (LfsrUnit.clocked c) { s with lfsrAt := k } := by
  obtain rfl | rfl | rfl : c = 0b00 ∨ c = 0b01 ∨ c = 0b10 := by revert c; decide
  all_goals rfl

/-- A clock of a built unit completes, and changes that unit alone (40_lfsr.md R108). -/
theorem lfsrTurn_of_built {k : Nat} {c : Ctl} {s : State} (hc : c ≠ 0b11) (hk : UnitBuilt s k) :
    lfsrTurn k false c s = .next (clockUnit k c s) := by
  obtain ⟨u, hu, ho, hf⟩ := hk
  rw [lfsrTurn_eq_onUnit hc, onUnit_built (s := { s with lfsrAt := k }) hu ho hf, clockUnit,
    List.modify_eq_set_getElem?, hu]
  rfl

theorem clockUnit_lfsrs (k : Nat) (c : Ctl) (s : State) (j : Nat) :
    (clockUnit k c s).lfsrs[j]? = (s.lfsrs[j]?).map fun u => if k = j then u.clocked c else u := by
  by_cases h : k = j <;> simp [clockUnit, h]

theorem UnitBuilt.clockUnit {s : State} {j : Nat} (h : UnitBuilt s j) (k : Nat) (c : Ctl) :
    UnitBuilt (clockUnit k c s) j := by
  obtain ⟨u, hu, ho, hf⟩ := h
  refine ⟨_, by rw [clockUnit_lfsrs, hu]; rfl, ?_, ?_⟩ <;> split <;> simpa

/-- A run of clocks of built units, no control 11, completes, and each unit has seen its own controls, in their order,
and no other's (40_lfsr.md R108). -/
theorem run_clockTurns {ps : List (Nat × Ctl)} {s : State} {ts : List Turn} (he : s.eagerDue = false)
    (hps : ∀ p ∈ ps, p.2 ≠ 0b11 ∧ UnitBuilt s p.1) (ht : s.turns = clockTurns ps ++ ts) :
    ∃ t, core.run ps.length s = .next t ∧ t.turns = ts ∧
      ∀ j, t.lfsrs[j]? = (s.lfsrs[j]?).map (LfsrUnit.clockedAll (ctlsOf j ps)) := by
  induction ps generalizing s with
  | nil => exact ⟨s, rfl, ht, fun _ => Option.map_id'.symm⟩
  | cons p ps ih =>
    obtain ⟨⟨hc, hbuilt⟩, hps⟩ := List.forall_mem_cons.mp hps
    have hstep : step s = .next (clockUnit p.1 p.2 { s with turns := clockTurns ps ++ ts }) :=
      (step_of_turn he ht).trans (lfsrTurn_of_built hc hbuilt)
    obtain ⟨t, hrun, hturns, hunits⟩ := ih (s := clockUnit p.1 p.2 { s with turns := clockTurns ps ++ ts }) he
      (fun q hq => ⟨(hps q hq).1, (hps q hq).2.clockUnit p.1 p.2⟩) rfl
    refine ⟨t, (run_succ hstep _).trans hrun, hturns, fun j => ?_⟩
    rw [hunits, clockUnit_lfsrs, Option.map_map]
    exact congrArg (Option.map · s.lfsrs[j]?) (funext fun u => (clockedAll_ctlsOf_cons j p ps u).symm)

/-- Settles O15: the clocks of the run are all unit `k`'s, and the last emits the output of the register before it. -/
theorem freshInstanceSequence : Obligations.FreshInstanceSequence := by
  intro s k u cs ts he hu ho hf hs hcs ht
  have hctls : ctlsOf k ((cs ++ [0b01]).map (Prod.mk k)) = cs ++ [0b01] := by
    simp [ctlsOf, List.filterMap_map]
  have hno11 : ∀ c ∈ cs ++ [0b01], c ≠ 0b11 := by
    intro c hc
    rcases (List.mem_append.mp hc).imp (hcs c) List.mem_singleton.mp with (rfl | rfl) | rfl <;> decide
  have hps : ∀ p ∈ (cs ++ [0b01]).map (Prod.mk k), p.2 ≠ 0b11 ∧ UnitBuilt s p.1 :=
    List.forall_mem_map.mpr fun c hc => ⟨hno11 c hc, u, hu, ho, hf⟩
  obtain ⟨t, hrun, hturns, hunits⟩ :=
    run_clockTurns (ts := ts) he hps (by simpa [clockTurns, Function.comp_def] using ht)
  have hregister : (u.clockedAll cs).s = shiftN u.fbTaps (cs.count 0b01) 0x3FF := hs ▸ u.clockedAll_s hcs
  have hunit : t.lfsrs[k]? = some (u.clockedAll cs).stepped := by
    rw [hunits, hctls, hu, Option.map_some, LfsrUnit.clockedAll_append]; rfl
  refine ⟨t, _, by simpa using hrun, hturns, hunit, u.clockedAll_outTaps cs, u.clockedAll_fbTaps cs, ?_, ?_⟩ <;>
    simp [LfsrUnit.stepped, LfsrUnit.out, hregister, shiftN]

/-- Settles O16: unit `k` and unit `l` have each seen the same list of controls. -/
theorem equalInstancesAgree : Obligations.EqualInstancesAgree := by
  intro s k l out fb cs ts he hkl hk hl ho hf hcs ht
  obtain ⟨hctlsk, hctlsl⟩ : ctlsOf k (cs.flatMap fun c => [(k, c), (l, c)]) = cs ∧
      ctlsOf l (cs.flatMap fun c => [(k, c), (l, c)]) = cs := by
    simp [ctlsOf, List.filterMap_flatMap, hkl, hkl.symm]
  have hps : ∀ p ∈ cs.flatMap fun c => [(k, c), (l, c)], p.2 ≠ 0b11 ∧ UnitBuilt s p.1 := by
    intro p hp
    obtain ⟨c, hc, hp⟩ := List.mem_flatMap.mp hp
    obtain rfl | rfl : p = (k, c) ∨ p = (l, c) := by simpa using hp
    · exact ⟨hcs c hc, _, hk, ho, hf⟩
    · exact ⟨hcs c hc, _, hl, ho, hf⟩
  obtain ⟨t, hrun, -, hunits⟩ :=
    run_clockTurns (ts := ts) he hps (by simpa [clockTurns, List.map_flatMap] using ht)
  exact ⟨t, _, by simpa [Nat.mul_comm] using hrun, by rw [hunits, hctlsk, hk]; rfl, by rw [hunits, hctlsl, hl]; rfl⟩

end Sys2Proof.Machine
end

section
/-! The commands of `CAGEN`, case by case (41_ca_generator.md R123 to R125). -/

namespace Sys2Proof.Machine

/-! ### The check of an entry (42_code_rom.md R140) -/

section
variable {e : TapEntry}

theorem checkEntry_of_tapA_out (hA : ¬ (1 ≤ tapA e ∧ tapA e ≤ 10)) : checkEntry e = some .tapRangeA := if_pos hA

theorem checkEntry_of_tapB_out (hA : 1 ≤ tapA e ∧ tapA e ≤ 10) (hB : ¬ (1 ≤ tapB e ∧ tapB e ≤ 10)) :
    checkEntry e = some .tapRangeB := by
  rw [checkEntry, if_neg (not_not_intro hA), if_pos hB]

theorem checkEntry_of_taps_in (hA : 1 ≤ tapA e ∧ tapA e ≤ 10) (hB : 1 ≤ tapB e ∧ tapB e ≤ 10) :
    checkEntry e = if tapA e = tapB e then some .tapDup else none := by
  rw [checkEntry, if_neg (not_not_intro hA), if_neg (not_not_intro hB)]

theorem checkEntry_of_taps_equal (hA : 1 ≤ tapA e ∧ tapA e ≤ 10) (hAB : tapA e = tapB e) :
    checkEntry e = some .tapDup := by
  rw [checkEntry_of_taps_in hA (hAB ▸ hA), if_pos hAB]

theorem checkEntry_of_taps_distinct (hA : 1 ≤ tapA e ∧ tapA e ≤ 10) (hB : 1 ≤ tapB e ∧ tapB e ≤ 10)
    (hAB : tapA e ≠ tapB e) : checkEntry e = none := by
  rw [checkEntry_of_taps_in hA hB, if_neg hAB]

end

/-! ### What each command answers -/

section
variable {s : State} {prn : Prn} {sat : Fin 32}

theorem exec_caSel_of_badPrn (hprn : ¬ (1 ≤ prn.toNat ∧ prn.toNat ≤ 32)) :
    exec (.caSel prn) s = .next (raiseFault .badPrn prn s) := by
  simp only [exec, execCaSel, satOfPrn_eq_none.mpr hprn]

theorem exec_caSel_of_malformed {c : FaultCode} (hsat : prn.toNat = sat.val + 1)
    (he : checkEntry (tapEntry s sat) = some c) : exec (.caSel prn) s = .next (raiseFault c prn s) := by
  simp only [exec, execCaSel, satOfPrn_eq_some.mpr hsat, he]

theorem exec_caSel_of_wellFormed (hsat : prn.toNat = sat.val + 1) (he : checkEntry (tapEntry s sat) = none) :
    exec (.caSel prn) s = .next (respond 0 (selectSat prn (tapEntry s sat) s)) := by
  simp only [exec, execCaSel, satOfPrn_eq_some.mpr hsat, he]

theorem exec_caStep_of_unselected (h : s.selPrn = 0) : exec .caStep s = .next (raiseFault .noSel 0 s) := if_pos h

theorem exec_caStep_of_selected (h : s.selPrn ≠ 0) :
    exec .caStep s =
      .next (respond ((s.chipCnt ++ 0#15 ++ chipOf s.g1 s.g2 s.g2Out).setWidth 32) (stepCaGen s)) := if_neg h

theorem exec_caRdst (u : BitVec 1) (s : State) :
    exec (.caRdst u) s = .next (respond ((if u = 0 then s.g1 else s.g2).setWidth 32) s) := rfl

end

/-- Settles O19: the field names no satellite, or the check of the satellite's entry gives the fault or the mask. -/
theorem caSelCommand : Obligations.CaSelCommand := by
  refine fun s prn => ⟨fun hprn => ?badPrn, ?satellite⟩
  case badPrn => rw [exec_caSel_of_badPrn hprn, raiseFault_eq]; rfl
  case satellite =>
    rintro sat hsat e rfl A B rfl rfl
    refine ⟨fun hA => ?rangeA, fun hA hA' hB => ?rangeB, fun hA hA' hAB => ?dup, fun hA hA' hB hB' hAB => ?selected⟩
    case rangeA => rw [exec_caSel_of_malformed hsat (checkEntry_of_tapA_out hA), raiseFault_eq]; rfl
    case rangeB => rw [exec_caSel_of_malformed hsat (checkEntry_of_tapB_out ⟨hA, hA'⟩ hB), raiseFault_eq]; rfl
    case dup => rw [exec_caSel_of_malformed hsat (checkEntry_of_taps_equal ⟨hA, hA'⟩ hAB), raiseFault_eq]; rfl
    case selected =>
      exact exec_caSel_of_wellFormed hsat (checkEntry_of_taps_distinct ⟨hA, hA'⟩ ⟨hB, hB'⟩ hAB)

/-- Settles O20: by whether a satellite is selected; the shifts and the chip are as R104 and R122 write them out. -/
theorem caStepCommand : Obligations.CaStepCommand := by
  refine fun s => ⟨fun hnone => ?unselected, fun hsel => ?selected⟩
  case unselected => rw [exec_caStep_of_unselected hnone, raiseFault_eq]; rfl
  case selected => exact exec_caStep_of_selected hsel

/-- Settles O21: the answer for each of the two values of `U`. -/
theorem caRdstCommand : Obligations.CaRdstCommand := fun s => ⟨exec_caRdst 0 s, exec_caRdst 1 s⟩

end Sys2Proof.Machine
end

section
/-! What a step does to `CAGEN` (41_ca_generator.md R126), and the invariants of its registers. -/

namespace Sys2Proof.Machine

open Sys2Proof.Safety

/-! ### The four moves of `CAGEN` -/

/-- The registers of `CAGEN`, with the configuration that holds the tap table. -/
def caGenOf (s : State) : Config × Stages × Stages × TapMask × Prn × BitVec 10 :=
  (s.cfg, s.g1, s.g2, s.g2Out, s.selPrn, s.chipCnt)

theorem caGenOf_eq_iff {s t : State} : caGenOf t = caGenOf s ↔
    t.cfg = s.cfg ∧ t.g1 = s.g1 ∧ t.g2 = s.g2 ∧ t.g2Out = s.g2Out ∧ t.selPrn = s.selPrn ∧ t.chipCnt = s.chipCnt := by
  simp only [caGenOf, Prod.mk.injEq]

/-- `CAGEN` of `t` is that of `s` unmoved, stepped, freshly selected for a well-formed entry, or reset. -/
def CaGenMoved (s t : State) : Prop :=
  caGenOf t = caGenOf s ∨
  caGenOf t = caGenOf (stepCaGen s) ∨
  (∃ (prn : Prn) (sat : Fin 32), prn.toNat = sat.val + 1 ∧ checkEntry (tapEntry s sat) = none ∧
    caGenOf t = caGenOf (selectSat prn (tapEntry s sat) s)) ∨
  caGenOf t = caGenOf (State.initial s.cfg [])

theorem caGenOf_raiseFault (c : FaultCode) (p : BitVec 6) (s : State) : caGenOf (raiseFault c p s) = caGenOf s := by
  simp [caGenOf_eq_iff]

theorem caGenOf_startBuild (s : State) : caGenOf (startBuild s) = caGenOf s := by
  simp [caGenOf_eq_iff]

theorem caGenOf_builderMoves (moves : List Nat) (s : State) : caGenOf (builderMoves moves s) = caGenOf s := by
  rw [builderMoves_eq_withBuilderSide]
  rfl

theorem exec_cmd_caGenMoved {i : Instr} {s t : State} (hf : i.format = .cmd32) (h : exec i s = .next t) :
    CaGenMoved s t :=
  exec_cmd_keeps (P := CaGenMoved s)
    (fault := fun c p _ => .inl (caGenOf_raiseFault c p s))
    (answer := fun _ _ => id)
    (wait := fun _ => id)
    (select := fun prn sat _ hsat he _ => .inr (.inr (.inl ⟨prn, sat, hsat, he, rfl⟩)))
    (advance := fun _ _ => .inr (.inl rfl))
    (start := fun _ _ => .inl (caGenOf_startBuild s))
    hf h (.inl rfl)

/-- Presenting a command leaves `CAGEN`, so its move is that of the command. -/
theorem CaGenMoved.of_presentNext {s t : State} (h : CaGenMoved (presentNext s) t) : CaGenMoved s t := by
  rcases presentNext_cases s with ⟨he, -⟩ | ⟨w, ws, -, -, he⟩ <;> rw [he] at h <;> exact h

theorem hostTurn_caGenMoved {s t : State} (h : hostTurn s = .next t) : CaGenMoved s t := by
  rcases hostTurn_cases h with ⟨-, -, rfl⟩ | ⟨w, -, ⟨i, -, hf, he⟩ | ⟨-, rfl⟩⟩
  · exact .inl rfl
  · exact (exec_cmd_caGenMoved hf he).of_presentNext
  · exact CaGenMoved.of_presentNext (.inl (caGenOf_raiseFault _ _ _))

theorem runTurn_caGenMoved {u : Turn} {s t : State} (h : runTurn u s = .next t) : CaGenMoved s t := by
  cases u with
  | host => exact hostTurn_caGenMoved h
  | builder first more => cases h; exact .inl (caGenOf_builderMoves (first :: more) s)
  | lfsr k rst c =>
    obtain ⟨i, hf, -, -, he⟩ := lfsrTurn_cases h
    obtain ⟨u, -, -, -, v, -, -, rfl⟩ := exec_ctl_cases hf he
    exact .inl rfl
  | rst => cases h; exact .inr (.inr (.inr rfl))

/-- Everything a step can do to `CAGEN`. -/
theorem step_caGenMoved {s t : State} (h : step s = .next t) : CaGenMoved s t := by
  rcases step_cases h with ⟨-, -, rfl⟩ | ⟨-, rfl⟩ | ⟨u, ts, -, hu⟩
  · exact .inl (caGenOf_startBuild s)
  · exact .inl rfl
  · have hmoved : CaGenMoved { s with turns := ts } t := runTurn_caGenMoved hu
    exact hmoved

/-! ### The invariants -/

/-- Settles O22: a selection and a reset seed both registers, and any other move of `CAGEN` leaves or shifts both. -/
theorem generatorsMoveTogether : Obligations.GeneratorsMoveTogether := by
  intro s t h
  rcases step_caGenMoved h with e | e | ⟨prn, sat, -, -, e⟩ | e <;>
    obtain ⟨-, h1, h2, -⟩ := caGenOf_eq_iff.mp e
  case inl => exact .inl ⟨h1, h2⟩
  case inr.inl => exact .inr (.inl ⟨h1, h2⟩)
  all_goals exact .inr (.inr ⟨h1, h2⟩)

theorem lockstep_congr {s t : State} (h : caGenOf t = caGenOf s) : Lockstep t ↔ Lockstep s := by
  obtain ⟨-, h1, h2, -, -, hcnt⟩ := caGenOf_eq_iff.mp h
  rw [Lockstep, Lockstep, h1, h2, hcnt]

/-- One more step of both, and the count goes on modulo 1023. -/
theorem lockstep_stepCaGen {s : State} (h : Lockstep s) : Lockstep (stepCaGen s) := by
  obtain ⟨n, h1, h2, hcnt⟩ := h
  refine ⟨n + 1, by rw [stepCaGen_g1, h1, shiftN], by rw [stepCaGen_g2, h2, shiftN], ?_⟩
  rw [stepCaGen_chipCnt, hcnt, BitVec.toNat_ofNat]
  omega

theorem lockstep_selectSat (prn : Prn) (e : TapEntry) (s : State) : Lockstep (selectSat prn e s) := ⟨0, rfl, rfl, rfl⟩

/-- Settles O56: each of the four moves of `CAGEN` keeps the lockstep or starts it anew. -/
theorem stepKeepsLockstep : Obligations.StepKeepsLockstep := by
  intro s t h hs
  rcases step_caGenMoved h with e | e | ⟨prn, sat, -, -, e⟩ | e <;> rw [lockstep_congr e]
  · exact hs
  · exact lockstep_stepCaGen hs
  · exact lockstep_selectSat prn _ s
  · exact lockstep_initial s.cfg []

theorem selectionConsistent_congr {s t : State} (h : caGenOf t = caGenOf s) :
    SelectionConsistent t ↔ SelectionConsistent s := by
  obtain ⟨hcfg, -, -, hout, hsel, -⟩ := caGenOf_eq_iff.mp h
  rw [SelectionConsistent, SelectionConsistent, hcfg, hout, hsel]

theorem selectionConsistent_selectSat {prn : Prn} {sat : Fin 32} {s : State} (hsat : prn.toNat = sat.val + 1)
    (he : checkEntry (tapEntry s sat) = none) : SelectionConsistent (selectSat prn (tapEntry s sat) s) :=
  fun _ => ⟨sat, hsat, he, rfl⟩

/-- Settles O55: `CA.SEL` selects only a well-formed entry, with its mask; a step of `CAGEN` leaves the selection, and a
reset leaves none. -/
theorem stepKeepsSelectionConsistent : Obligations.StepKeepsSelectionConsistent := by
  intro s t h hs
  rcases step_caGenMoved h with e | e | ⟨prn, sat, hsat, he, e⟩ | e <;> rw [selectionConsistent_congr e]
  · exact hs
  · exact hs
  · exact selectionConsistent_selectSat hsat he
  · exact fun hsel => absurd rfl hsel

end Sys2Proof.Machine
end

section
/-! `CA.SEL` and the `CA.STEP`s after it: the stream is the satellite's code, again and again (41_ca_generator.md R127,
R128). -/

namespace Sys2Proof.Machine

open Sys2Proof.Safety

/-! ### A register that returns after 1023 shifts -/

theorem shiftN_mod_1023 {fb : TapMask} {s : Stages} (h : shiftN fb 1023 s = s) (n : Nat) :
    shiftN fb (n % 1023) s = shiftN fb n s := by
  simp only [shiftN_eq_iterate] at h ⊢
  exact Function.IsPeriodicPt.iterate_mod_apply h n

theorem caChip_mod_1023 (cfg : Config) (sat : Fin 32) (n : Nat) : caChip cfg sat (n % 1023) = caChip cfg sat n := by
  rw [caChip, shiftN_mod_1023 shiftN_g1FbTaps_1023, shiftN_mod_1023 shiftN_g2FbTaps_1023, caChip]

/-! ### The state along the stream -/

/-- The state after `CA.SEL` of a satellite with a well-formed entry and `n` `CA.STEP`s, the last of which answered
`r`. -/
def streamState (prn : Prn) (sat : Fin 32) (n : Nat) (r : Option Response) (s : State) : State :=
  { selectSat prn (tapEntry s sat) s with
    g1 := shiftN g1FbTaps n seed, g2 := shiftN g2FbTaps n seed, chipCnt := BitVec.ofNat 10 (n % 1023),
    port := none, rsp := r }

section
variable {s : State} {prn : Prn} {sat : Fin 32}

/-- A satellite is selected all along the stream. -/
theorem streamState_selPrn_ne_zero (hsat : prn.toNat = sat.val + 1) (n : Nat) (r : Option Response) :
    (streamState prn sat n r s).selPrn ≠ 0 := by
  change prn ≠ 0
  rintro rfl
  simp at hsat

/-- `CA.SEL` begins the stream. -/
theorem exec_caSel_streamState (hsat : prn.toNat = sat.val + 1) (he : checkEntry s.cfg.tapTable[sat] = none) :
    exec (.caSel prn) s = .next (streamState prn sat 0 (some ⟨false, 0⟩) s) :=
  exec_caSel_of_wellFormed hsat he

/-- `CA.STEP` answers the chip the stream has come to, and goes on. -/
theorem exec_caStep_streamState (hsat : prn.toNat = sat.val + 1) (n : Nat) (r : Option Response) :
    exec .caStep (streamState prn sat n r s) = .next (streamState prn sat (n + 1)
      (chipResponse (BitVec.ofNat 10 (n % 1023)) (caChip s.cfg sat n)) s) := by
  have hcnt : ((BitVec.ofNat 10 (n % 1023)).toNat + 1) % 1023 = (n + 1) % 1023 := by
    rw [BitVec.toNat_ofNat]
    omega
  rw [exec_caStep_of_selected (streamState_selPrn_ne_zero hsat n r)]
  simp only [streamState, stepCaGen, respond, hcnt]
  rfl

theorem execAll_cons_of_next {i : Instr} {s t : State} (h : exec i s = .next t) (is : List Instr) :
    execAll (i :: is) s = execAll is t := by
  rw [execAll, h]

/-- A run of `CA.STEP`s along the stream, and the answer of the last. -/
theorem execAll_caSteps_streamState (hsat : prn.toNat = sat.val + 1) (k : Nat) :
    ∀ (n : Nat) (r : Option Response), execAll (List.replicate (k + 1) .caStep) (streamState prn sat n r s) =
      .next (streamState prn sat (n + k + 1)
        (chipResponse (BitVec.ofNat 10 ((n + k) % 1023)) (caChip s.cfg sat (n + k))) s) := by
  induction k with
  | zero => exact fun n r => execAll_cons_of_next (exec_caStep_streamState hsat n r) []
  | succ k ih =>
    intro n r
    rw [List.replicate_succ, execAll_cons_of_next (exec_caStep_streamState hsat n r), ih, Nat.add_right_comm n 1 k,
      Nat.add_assoc n k 1]

/-- After 1023 steps the stream is where it began. -/
theorem streamState_1023 (r : Option Response) : streamState prn sat 1023 r s = streamState prn sat 0 r s := by
  rw [streamState, shiftN_g1FbTaps_1023, shiftN_g2FbTaps_1023]
  rfl

end

/-- Settles O23: the last of the `n + 1` steps answers chip `n`, and the code repeats after 1023 chips. -/
theorem caStreamIsTheCode : Obligations.CaStreamIsTheCode := by
  intro s prn sat n hsat he
  have hrun := execAll_caSteps_streamState (s := s) hsat n 0 (some ⟨false, 0⟩)
  rw [Nat.zero_add] at hrun
  refine ⟨_, (execAll_cons_of_next (exec_caSel_streamState hsat he) _).trans hrun, ?_⟩
  rw [caChip_mod_1023]
  rfl

/-- Settles O24: 1023 steps along the stream lead back to where `CA.SEL` began it. -/
theorem caGenPeriod : Obligations.CaGenPeriod := by
  intro s prn sat hsat he
  have hrun := execAll_caSteps_streamState (s := s) hsat 1022 0 (some ⟨false, 0⟩)
  rw [Nat.zero_add, streamState_1023] at hrun
  exact ⟨_, _, exec_caSel_streamState hsat he, hrun, rfl, rfl, rfl, rfl⟩

end Sys2Proof.Machine
end

section
/-! What the builder has written is the beginning of the code table (42_code_rom.md R141, R146, R149). -/

namespace Sys2Proof.Machine

open Sys2Proof.Safety

/-! ### The code table -/

/-- The chip at a satellite's address is the satellite's (20_memory.md R52). -/
theorem caChipAt_codeAddr (cfg : Config) (sat : Fin 32) {i : Nat} (hi : i < 1023) :
    caChipAt cfg (codeAddr sat i) = caChip cfg sat i := by
  have hdiv : codeAddr sat i / 1023 = sat.val := by rw [codeAddr]; omega
  have hmod : codeAddr sat i % 1023 = i := by rw [codeAddr]; omega
  rw [caChipAt, hdiv, hmod, Fin.ofNat_val_eq_self]

theorem codeAddr_succ (sat : Fin 32) (i : Nat) : codeAddr sat (i + 1) = codeAddr sat i + 1 := by
  simp only [codeAddr, Nat.add_assoc]

theorem tablePrefix_succ (cfg : Config) (n : Nat) :
    tablePrefix cfg (n + 1) = tablePrefix cfg n ++ [(n, caChipAt cfg n)] := by
  simp [tablePrefix, List.range_succ]

theorem fst_lt_of_mem_tablePrefix {cfg : Config} {n : Nat} {c : CodeCell} (h : c ∈ tablePrefix cfg n) : c.1 < n := by
  obtain ⟨a, ha, rfl⟩ := List.mem_map.mp h
  exact List.mem_range.mp ha

/-- One of the first `n` cells holds its chip, and no other cell is listed. -/
theorem codeRead_tablePrefix (cfg : Config) (n a : Nat) :
    codeRead (tablePrefix cfg n) a = if a < n then some (caChipAt cfg a) else none := by
  induction n with
  | zero => rfl
  | succ n ih =>
    rw [tablePrefix_succ, codeRead_append, ih]
    obtain hlt | rfl | hgt : a < n ∨ a = n ∨ n < a := by omega
    · simp [hlt, Nat.lt_succ_of_lt hlt]
    · simp [codeRead]
    · simp [codeRead, hgt.not_gt, hgt.ne]; omega

/-- Chips of a satellite from chip `i` on go in the cells after those up to chip `i`. -/
theorem tablePrefix_append_chipRun (cfg : Config) (sat : Fin 32) (n : Nat) : ∀ i : Nat, i + n ≤ 1023 →
    tablePrefix cfg (codeAddr sat i) ++ codeRun (codeAddr sat i)
      (chipRun n (shiftN g1FbTaps i seed) (shiftN g2FbTaps i seed) (entryMask cfg.tapTable[sat])) =
    tablePrefix cfg (codeAddr sat (i + n)) := by
  induction n with
  | zero => exact fun i _ => List.append_nil _
  | succ n ih =>
    intro i hi
    have hchip : chipOf (shiftN g1FbTaps i seed) (shiftN g2FbTaps i seed) (entryMask cfg.tapTable[sat]) =
        caChipAt cfg (codeAddr sat i) := (caChipAt_codeAddr cfg sat (by omega)).symm
    rw [chipRun, codeRun, List.append_cons, hchip, ← tablePrefix_succ, ← codeAddr_succ, ← shiftN, ← shiftN,
      ih (i + 1) (by omega), Nat.add_right_comm, Nat.add_assoc]

/-- Settles O35: in BUILT `CODE` is the code table, and the satellite's chip stands at its address. -/
theorem builtTableHoldsEveryCode : Obligations.BuiltTableHoldsEveryCode := by
  intro s hs hbuilt sat i hi
  simp only [BuildConsistent, hbuilt] at hs
  obtain ⟨-, hcode⟩ := hs
  have haddr : codeAddr sat i < 32736 := by rw [codeAddr]; omega
  calc codeRead s.code (codeAddr sat i)
    _ = some (caChipAt s.cfg (codeAddr sat i)) := by rw [hcode, fullTable, codeRead_tablePrefix, if_pos haddr]
    _ = some (caChip s.cfg sat i) := by rw [caChipAt_codeAddr s.cfg sat (by omega)]

/-! ### The build invariant -/

/-- What the build invariant speaks of. -/
def buildOf (s : State) : Config × RomState × CodeMemory × Cursor × Stages × Stages × TapMask :=
  (s.cfg, s.romState, s.code, s.cursor, s.b1, s.b2, s.b2Out)

theorem buildConsistent_congr {s t : State} (h : buildOf t = buildOf s) : BuildConsistent t ↔ BuildConsistent s := by
  simp only [buildOf, Prod.mk.injEq] at h
  obtain ⟨hcfg, hrom, hcode, hcursor, hb1, hb2, hb2Out⟩ := h
  unfold BuildConsistent
  rw [hcfg, hrom, hcode, hcursor, hb1, hb2, hb2Out]

theorem buildOf_raiseFault (c : FaultCode) (p : BitVec 6) (s : State) : buildOf (raiseFault c p s) = buildOf s := by
  simp [buildOf]

theorem startBuild_of_uninit {s : State} (h : s.romState = .uninit) :
    startBuild s = { s with romState := .building, cursor := .check 0 } := if_pos h

/-- A build starts with nothing written and nothing checked. -/
theorem buildConsistent_startBuild {s : State} (h : BuildConsistent s) : BuildConsistent (startBuild s) := by
  by_cases hu : s.romState = .uninit
  · simp only [BuildConsistent, hu] at h
    rw [startBuild_of_uninit hu]
    exact ⟨h, nofun⟩
  · rwa [startBuild_of_not_uninit hu]

theorem buildConsistent_exec {i : Instr} {s t : State} (hf : i.format = .cmd32) (h : exec i s = .next t)
    (hs : BuildConsistent s) : BuildConsistent t :=
  exec_cmd_keeps
    (fault := fun c p => (buildConsistent_congr (buildOf_raiseFault c p s)).mpr)
    (answer := fun _ _ => id)
    (wait := fun _ => id)
    (select := fun _ _ _ _ _ => id)
    (advance := fun _ => id)
    (start := fun _ => buildConsistent_startBuild)
    hf h hs

/-! ### The moves of the builder -/

section
variable {s : State} {sat : Fin 32}

/-- A malformed entry fails the build before anything is written (42_code_rom.md R149). -/
theorem buildConsistent_check_failed {c : FaultCode} (hb : s.romState = .building) (hc : s.cursor = .check sat)
    (he : checkEntry (tapEntry s sat) = some c) (h : BuildConsistent s) :
    BuildConsistent { latch c (prnOfSat sat) s with romState := .failed } := by
  simp only [BuildConsistent, hb, hc] at h
  obtain ⟨hcode, -⟩ := h
  refine ⟨by simpa using hcode, fun hwf => ?_⟩
  rw [latch_cfg] at hwf
  cases he.symm.trans (hwf sat)

/-- The entries up to a well-formed one are well formed if those before it are. -/
theorem entries_wellFormed_through (he : checkEntry (tapEntry s sat) = none)
    (hbefore : ∀ k : Fin 32, k.val < sat.val → checkEntry s.cfg.tapTable[k] = none) (k : Fin 32)
    (hk : k.val ≤ sat.val) : checkEntry s.cfg.tapTable[k] = none := by
  obtain hlt | heq := Nat.lt_or_eq_of_le hk
  · exact hbefore k hlt
  · rw [Fin.ext heq]; exact he

/-- After the last entry's check the whole table is known to be well formed. -/
theorem buildConsistent_check_passed (hb : s.romState = .building) (hc : s.cursor = .check sat)
    (he : checkEntry (tapEntry s sat) = none) (h : BuildConsistent s) :
    BuildConsistent { s with cursor := afterSat sat .check (.construct 0) } := by
  simp only [BuildConsistent, hb, hc] at h
  obtain ⟨hcode, hbefore⟩ := h
  have hthrough := entries_wellFormed_through he hbefore
  rcases afterSat_cases sat .check (.construct 0) with ⟨l, hl, e⟩ | ⟨hlast, e⟩ <;>
    simp only [BuildConsistent, hb, e]
  · exact ⟨hcode, fun k hk => hthrough k (by omega)⟩
  · exact ⟨fun k => hthrough k (by omega), hcode⟩

theorem buildConsistent_builderConstruct (hb : s.romState = .building) (hc : s.cursor = .construct sat)
    (h : BuildConsistent s) : BuildConsistent (builderConstruct sat s) := by
  simp only [BuildConsistent, hb, hc] at h
  obtain ⟨hwf, hcode⟩ := h
  simp only [BuildConsistent, builderConstruct_romState, builderConstruct_cursor, hb]
  exact ⟨hwf, by simpa using hcode, rfl, rfl, rfl⟩

/-- The chips written go on where the cells written end; after the last chip of a satellite the next begins. -/
theorem buildConsistent_builderChips {i : Fin 1023} {n : Nat} (hb : s.romState = .building)
    (hc : s.cursor = .chip sat i) (hn : i.val + n ≤ 1023) (h : BuildConsistent s) :
    BuildConsistent (builderChips sat i n s) := by
  simp only [BuildConsistent, hb, hc] at h
  obtain ⟨hwf, hcode, hb1, hb2, hb2Out⟩ := h
  rw [← codeAddr] at hcode
  have hcode' : (builderChips sat i n s).code = tablePrefix s.cfg (codeAddr sat (i + n)) := by
    rw [builderChips_code, hcode, codeWriteRun_of_all_below _ fun c => fst_lt_of_mem_tablePrefix, hb1, hb2, hb2Out]
    exact tablePrefix_append_chipRun s.cfg sat n i hn
  rcases afterChips_eq sat i n hn with ⟨j, hj, e⟩ | ⟨hrow, ⟨l, hl, e⟩ | ⟨hlast, e⟩⟩ <;>
    simp only [BuildConsistent, builderChips_romState, builderChips_cursor, hb, e, hcode']
  · refine ⟨hwf, by rw [hj]; rfl, ?_, ?_, hb2Out⟩
    · rw [builderChips_b1, hb1, shiftN_add, hj, Nat.add_comm]
    · rw [builderChips_b2, hb2, shiftN_add, hj, Nat.add_comm]
  · exact ⟨hwf, congrArg (tablePrefix s.cfg) (by rw [codeAddr]; omega)⟩
  · exact ⟨hwf, congrArg (tablePrefix s.cfg) (by rw [codeAddr]; omega)⟩

theorem buildConsistent_publish (hb : s.romState = .building) (hc : s.cursor = .publish) (h : BuildConsistent s) :
    BuildConsistent { s with romState := .built } := by
  simpa only [BuildConsistent, hb, hc] using h

end

theorem buildConsistent_builderMove (n : Nat) {s : State} (h : BuildConsistent s) :
    BuildConsistent (builderMove n s) := by
  rcases builderMove_cases n s with
    ⟨-, e⟩ | ⟨hb, ⟨k, c, hc, he, e⟩ | ⟨k, hc, he, e⟩ | ⟨k, hc, e⟩ | ⟨k, i, hc, e⟩ | ⟨hc, e⟩⟩ <;> rw [e]
  · exact h
  · exact buildConsistent_check_failed hb hc he h
  · exact buildConsistent_check_passed hb hc he h
  · exact buildConsistent_builderConstruct hb hc h
  · exact buildConsistent_builderChips hb hc (by omega) h
  · exact buildConsistent_publish hb hc h

/-- Settles O57: each move of the builder extends what is written or ends the build, and no other move touches it but a start
and a reset, which have nothing written. -/
theorem stepKeepsBuildConsistent : Obligations.StepKeepsBuildConsistent :=
  fun _ _ h => nextMove_keeps
    (turns := fun _ _ => id)
    (unit := fun _ _ _ => id)
    (present := fun _ _ _ => id)
    (command := fun _ _ _ => buildConsistent_exec)
    (illegal := fun s => (buildConsistent_congr (buildOf_raiseFault _ _ s)).mpr)
    (build := fun n _ => buildConsistent_builderMove n)
    (eager := fun _ => buildConsistent_startBuild)
    (reset := fun _ _ _ => rfl)
    h

end Sys2Proof.Machine
end

section
/-! When `ROM_STATE` changes, and the eager start (42_code_rom.md R142, R148). -/

namespace Sys2Proof.Machine

open Sys2Proof.Safety

/-! ### The eager start -/

/-- A reset that is asserted comes first, even before the eager start (70_reset_and_hazards.md R200). -/
theorem step_of_resetNext {s : State} (h : ResetNext s) :
    step s = .next (resetBlock { s with turns := s.turns.tail }) := by
  obtain ⟨ts, hts⟩ := List.head?_eq_some_iff.mp h
  simp [step, nextMove, eagerFirst, runTurn, hts]

/-- The eager start is taken in the first step that is no reset, and only a reset makes it due again. -/
theorem eagerDue_eq_false_of_step {s t : State} (h : step s = .next t) (hr : ¬ ResetNext s) : t.eagerDue = false := by
  cases hdue : s.eagerDue with
  | true =>
    cases (step_of_eager hdue hr).symm.trans h
    rfl
  | false =>
    exact nextMove_keeps (P := fun u => u.eagerDue = false)
      (turns := fun _ _ => id)
      (unit := fun _ _ _ => id)
      (present := fun _ _ _ => id)
      (command := fun i u v hf he hu => by
        obtain ⟨-, -, -, -, -, -, -, -, -, heager⟩ := exec_cmd_sameOutsideCommands hf he
        exact heager.trans hu)
      (illegal := fun _ hu => by simpa using hu)
      (build := fun n u hu => by rw [builderMove_eq_withBuilderSide]; exact hu)
      (eager := fun _ _ => rfl)
      (reset := fun hrst => absurd hrst hr)
      h hdue

theorem eagerConsistent_resetBlock (s : State) : EagerConsistent (resetBlock s) := fun hdue => ⟨hdue, rfl, rfl⟩

/-- Settles O60: after a reset the start is due only as the configuration says; after any other step it is not due. -/
theorem stepKeepsEagerConsistent : Obligations.StepKeepsEagerConsistent := by
  refine fun s t h _ => ⟨?_, eagerDue_eq_false_of_step h⟩
  by_cases hr : ResetNext s
  · cases (step_of_resetNext hr).symm.trans h
    exact eagerConsistent_resetBlock _
  · exact fun hdue => absurd hdue (by simp [eagerDue_eq_false_of_step h hr])

/-- The start leaves all but `ROM_STATE` and the cursor (42_code_rom.md R148). -/
theorem step_of_eager_uninit {s : State} (hdue : s.eagerDue = true) (hr : ¬ ResetNext s) (hu : s.romState = .uninit) :
    step s = .next { s with romState := .building, cursor := .check 0, eagerDue := false } := by
  rw [step_of_eager hdue hr, eagerStart, startBuild_of_uninit hu]

/-- Settles O34: the start is the next step wherever it is due; where it is not, the queued command runs. -/
theorem eagerBuildComesFirst : Obligations.EagerBuildComesFirst := by
  refine ⟨fun s hdue hr => ⟨fun hu => ⟨.check 0, step_of_eager_uninit hdue hr hu⟩, fun hu => ?begun⟩,
    fun cfg units w ws ts i => ⟨fun hcfg => ⟨.check 0, ?eager⟩, fun hcfg hd => ?lazy⟩⟩
  case begun => rw [step_of_eager hdue hr, eagerStart, startBuild_of_not_uninit hu]
  case eager => exact step_of_eager_uninit hcfg (by simp [ResetNext]) rfl
  case lazy =>
    obtain ⟨hqueued, -⟩ := hostStepRunsDecodedCommand
    exact hqueued _ w ws ts i hcfg rfl rfl rfl hd

/-! ### The events that change `ROM_STATE` -/

/-- Only a start changes `ROM_STATE` by a command: `ROM.BUILD`, or a legal `ROM.READ`, in UNINIT. -/
theorem exec_cmd_changes_romState {i : Instr} {s t : State} (hf : i.format = .cmd32) (h : exec i s = .next t)
    (hne : t.romState ≠ s.romState) :
    s.romState = .uninit ∧ t.romState = .building ∧
      (i = .romBuild ∨
        ∃ prn idx, i = .romRead prn idx ∧ 1 ≤ prn.toNat ∧ prn.toNat ≤ 32 ∧ idx.toNat ≤ 1022) := by
  have hu : s.romState = .uninit := by
    by_contra hu
    exact hne (exec_cmd_romState_of_not_uninit hf h hu)
  rcases exec_cmd_cases hf h with
    ⟨c, p, rfl⟩ | ⟨d, rfl, -⟩ | ⟨prn, sat, -, -, -, rfl⟩ | ⟨-, -, rfl⟩ | ⟨hi, rfl⟩ |
      ⟨prn, idx, hi, ⟨sat, hsat⟩, hidx, ⟨-, rfl⟩ | ⟨-, rfl⟩⟩
  case inr.inr.inr.inr.inl => exact ⟨hu, by simp [hu], .inl hi⟩
  case inr.inr.inr.inr.inr.inl => exact ⟨hu, by simp [hu], .inr ⟨prn, idx, hi, by omega, by omega, hidx⟩⟩
  all_goals exact absurd (by simp) hne

/-- The builder leaves BUILDING for the end of the build alone. -/
theorem builderMoves_changes_romState {moves : List Nat} {s : State}
    (hne : (builderMoves moves s).romState ≠ s.romState) :
    s.romState = .building ∧
      ((builderMoves moves s).romState = .built ∨ (builderMoves moves s).romState = .failed) := by
  have hb : s.romState = .building := by
    by_contra hb
    exact hne (by rw [builderMoves_of_not_building hb])
  have hu : (builderMoves moves s).romState ≠ .uninit :=
    builderMoves_keeps (P := fun u => u.romState ≠ .uninit) (fun n _ => builderMove_not_uninit n) moves (by simp [hb])
  refine ⟨hb, ?_⟩
  cases he : (builderMoves moves s).romState <;> simp_all

/-- The word that stands in the port after presenting was held there, or was the queue's head. -/
theorem port_presentNext {s : State} {w : Word} (h : (presentNext s).port = some w) :
    s.port = some w ∨ (s.port = none ∧ s.hostQueue.head? = some w) := by
  rcases presentNext_cases s with ⟨e, -⟩ | ⟨w', ws, hp, hq, e⟩ <;> rw [e] at h
  · exact .inl h
  · exact .inr ⟨hp, by rw [hq]; exact h⟩

/-- The host's turn changes `ROM_STATE` by the command it presents or holds. -/
theorem hostTurn_changes_romState {s t : State} (h : hostTurn s = .next t) (hne : t.romState ≠ s.romState) :
    s.romState = .uninit ∧ t.romState = .building ∧
      ∃ w, (s.port = some w ∨ (s.port = none ∧ s.hostQueue.head? = some w)) ∧
        (decode (.cmd32 w) = .ok .romBuild ∨
          ∃ prn idx, decode (.cmd32 w) = .ok (.romRead prn idx) ∧
            1 ≤ prn.toNat ∧ prn.toNat ≤ 32 ∧ idx.toNat ≤ 1022) := by
  rcases hostTurn_cases h with ⟨-, -, rfl⟩ | ⟨w, hw, ⟨i, hd, hf, he⟩ | ⟨-, rfl⟩⟩
  · exact absurd rfl hne
  · obtain ⟨huninit, hbuilding, hi⟩ := exec_cmd_changes_romState hf he (by simpa using hne)
    refine ⟨by simpa using huninit, hbuilding, w, port_presentNext hw, ?_⟩
    rcases hi with rfl | ⟨prn, idx, rfl, hlegal⟩
    · exact .inl hd
    · exact .inr ⟨prn, idx, hd, hlegal⟩
  · exact absurd (by simp) hne

theorem eagerStart_changes_romState {s : State} (hne : (eagerStart s).romState ≠ s.romState) :
    s.romState = .uninit ∧ (eagerStart s).romState = .building := by
  have huninit : s.romState = .uninit := by
    by_contra hu
    exact hne (by rw [eagerStart, startBuild_of_not_uninit hu])
  exact ⟨huninit, by simp [eagerStart, huninit]⟩

/-- Settles O31: by the eager start and the turn of each agent. -/
theorem romStateTransitions : Obligations.RomStateTransitions := by
  intro s t h hne
  rcases step_cases h with ⟨hdue, hr, rfl⟩ | ⟨-, rfl⟩ | ⟨u, ts, hturns, hu⟩
  · obtain ⟨huninit, hbuilding⟩ := eagerStart_changes_romState hne
    refine .inr (.inl ⟨hdue, hr, huninit, hbuilding, fun he => ?_⟩)
    obtain ⟨hcfg, -, hport⟩ := he hdue
    exact ⟨hcfg, hport⟩
  · exact absurd rfl hne
  · have hturn : s.turns.head? = some u := by rw [hturns]; rfl
    cases u with
    | host =>
      have hstart := hostTurn_changes_romState hu hne
      exact .inr (.inr (.inl ⟨hturn, hstart⟩))
    | builder first more =>
      cases hu
      exact .inr (.inr (.inr ⟨⟨first, more, hturn⟩, builderMoves_changes_romState hne⟩))
    | lfsr k rst c =>
      obtain ⟨i, hf, -, -, he⟩ := lfsrTurn_cases hu
      obtain ⟨-, -, -, -, v, -, -, rfl⟩ := exec_ctl_cases hf he
      exact absurd rfl hne
    | rst =>
      cases hu
      exact .inl ⟨hturn, rfl⟩

end Sys2Proof.Machine
end

section
/-! The commands that reach the tables, case by case (42_code_rom.md R140, R143 to R147). -/

namespace Sys2Proof.Machine

open Sys2Proof.Safety

/-- Settles O28: the three checks in their order, each by whether it fails. -/
theorem entryCheckOrder : Obligations.EntryCheckOrder := by
  rintro e A B rfl rfl
  rw [← tapA, ← tapB]
  split_ifs with hA hB hAB
  · exact checkEntry_of_tapA_out (by omega)
  · exact checkEntry_of_tapB_out (by omega) (by omega)
  · exact checkEntry_of_taps_equal (by omega) hAB
  · exact checkEntry_of_taps_distinct (by omega) (by omega) hAB

/-! ### What each command answers -/

/-- A legal `PRN` field names a satellite (30_encoding.md R73). -/
theorem exists_sat_of_legal {prn : Prn} (h1 : 1 ≤ prn.toNat) (h32 : prn.toNat ≤ 32) :
    ∃ sat : Fin 32, prn.toNat = sat.val + 1 :=
  ⟨⟨prn.toNat - 1, by omega⟩, by simp only; omega⟩

theorem codeChip_of_codeRead {s : State} {a : Nat} {v : Chip} (h : codeRead s.code a = some v) : codeChip s a = v := by
  rw [codeChip, h]

section
variable {s : State} {prn : Prn} {idx : ChipIdx} {sat : Fin 32}

theorem exec_romBuild_of_uninit (hrom : s.romState = .uninit) :
    exec .romBuild s = .next (respond 1 { s with romState := .building, cursor := .check 0 }) := by
  rw [exec, execRomBuild, startBuild_of_uninit hrom]; rfl

/-- A build that has begun is only reported. -/
theorem exec_romBuild_of_begun {r : RomState} (hrom : s.romState = r) (hr : r ≠ .uninit) :
    exec .romBuild s = .next (respond (r.bits.setWidth 32) s) := by
  rw [exec, execRomBuild, startBuild_of_not_uninit (hrom ▸ hr), hrom]

theorem exec_tapRead_of_badPrn (hprn : ¬ (1 ≤ prn.toNat ∧ prn.toNat ≤ 32)) :
    exec (.tapRead prn) s = .next (raiseFault .badPrn prn s) := by
  simp only [exec, execTapRead, satOfPrn_eq_none.mpr hprn]

theorem exec_tapRead_of_sat (hsat : prn.toNat = sat.val + 1) :
    exec (.tapRead prn) s = .next (respond ((tapEntry s sat).setWidth 32) s) := by
  simp only [exec, execTapRead, satOfPrn_eq_some.mpr hsat]

theorem exec_romRead_of_badPrn (hprn : ¬ (1 ≤ prn.toNat ∧ prn.toNat ≤ 32)) :
    exec (.romRead prn idx) s = .next (raiseFault .badPrn prn s) := by
  simp only [exec, execRomRead, satOfPrn_eq_none.mpr hprn]

theorem exec_romRead_of_badIndex (hsat : prn.toNat = sat.val + 1) (hidx : 1022 < idx.toNat) :
    exec (.romRead prn idx) s = .next (raiseFault .badIndex 0 s) := by
  simp only [exec, execRomRead, satOfPrn_eq_some.mpr hsat, chipOfIdx_eq_none.mpr hidx]

section
/-! With legal operands `ROM_STATE` alone decides (60_exceptions.md R181). -/

variable (hsat : prn.toNat = sat.val + 1) (hidx : idx.toNat ≤ 1022)
include hsat hidx

theorem exec_romRead_of_failed (hrom : s.romState = .failed) :
    exec (.romRead prn idx) s = .next (raiseFault .romFailed 0 s) := by
  simp only [exec, execRomRead, satOfPrn_eq_some.mpr hsat, chipOfIdx, dif_pos hidx, hrom]

theorem exec_romRead_of_uninit (hrom : s.romState = .uninit) :
    exec (.romRead prn idx) s = .next (hold (startBuild s)) := by
  simp only [exec, execRomRead, satOfPrn_eq_some.mpr hsat, chipOfIdx, dif_pos hidx, hrom]

theorem exec_romRead_of_building (hrom : s.romState = .building) :
    exec (.romRead prn idx) s = .next (hold s) := by
  simp only [exec, execRomRead, satOfPrn_eq_some.mpr hsat, chipOfIdx, dif_pos hidx, hrom]

theorem exec_romRead_of_built (hrom : s.romState = .built) :
    exec (.romRead prn idx) s = .next (respond ((codeChip s (codeAddr sat idx.toNat)).setWidth 32) s) := by
  simp only [exec, execRomRead, satOfPrn_eq_some.mpr hsat, chipOfIdx, dif_pos hidx, hrom]

end
end

/-! ### `ROM.BUILD` and `TAP.READ` -/

/-- Settles O25: the command starts the build in UNINIT alone. -/
theorem romBuildCommand : Obligations.RomBuildCommand :=
  fun _ => ⟨fun hrom => ⟨.check 0, exec_romBuild_of_uninit hrom⟩, fun hrom => exec_romBuild_of_begun hrom nofun,
    fun hrom => exec_romBuild_of_begun hrom nofun, fun hrom => exec_romBuild_of_begun hrom nofun⟩

/-- Settles O27: the field names no satellite, or the answer is the satellite's entry. -/
theorem tapReadCommand : Obligations.TapReadCommand := by
  refine fun s prn => ⟨fun hprn => ?badPrn, fun sat hsat => exec_tapRead_of_sat hsat⟩
  case badPrn => rw [exec_tapRead_of_badPrn hprn, raiseFault_eq]; rfl

/-! ### `ROM.READ` -/

/-- Settles O26: by the operands, then by `ROM_STATE`; the host's turn runs a held word as it decodes. -/
theorem romReadCommand : Obligations.RomReadCommand := by
  refine fun s prn idx => ⟨fun hprn => ?badPrn, fun h1 h32 hidx => ?badIndex, fun h1 h32 hidx => ?legal,
    fun w ts he ht hp hd => ?held⟩
  case badPrn => rw [exec_romRead_of_badPrn hprn, raiseFault_eq]; rfl
  case badIndex =>
    obtain ⟨sat, hsat⟩ := exists_sat_of_legal h1 h32
    rw [exec_romRead_of_badIndex hsat hidx, raiseFault_eq]; rfl
  case legal =>
    obtain ⟨sat, hsat⟩ := exists_sat_of_legal h1 h32
    refine ⟨fun hrom => ?failed, fun hrom => ⟨.check 0, ?uninit⟩, exec_romRead_of_building hsat hidx,
      fun hrom => ⟨_, exec_romRead_of_built hsat hidx hrom, fun v hv => codeChip_of_codeRead ?built⟩⟩
    case failed => rw [exec_romRead_of_failed hsat hidx hrom, raiseFault_eq]; rfl
    case uninit => rw [exec_romRead_of_uninit hsat hidx hrom, startBuild_of_uninit hrom]; rfl
    case built => rwa [hsat, Nat.add_sub_cancel] at hv
  case held =>
    obtain ⟨-, hheld⟩ := hostStepRunsDecodedCommand
    exact hheld s w ts _ he ht hp hd

/-- Settles O36: the cell holds the chip of the code, and so does the answer of the last `CA.STEP`. -/
theorem tableAndGeneratorAgree : Obligations.TableAndGeneratorAgree := by
  intro s prn idx hs hbuilt h1 h32 hidx
  obtain ⟨sat, hsat⟩ := exists_sat_of_legal h1 h32
  have hchip : codeChip s (codeAddr sat idx.toNat) = caChip s.cfg sat idx.toNat :=
    codeChip_of_codeRead (builtTableHoldsEveryCode s hs hbuilt sat _ hidx)
  have hwf : TableWellFormed s.cfg := by
    simp only [BuildConsistent, hbuilt] at hs
    exact hs.left
  obtain ⟨u, hrun, hrsp⟩ := caStreamIsTheCode s prn sat idx.toNat hsat (hwf sat)
  rw [Nat.mod_eq_of_lt (by omega : idx.toNat < 1023), BitVec.ofNat_toNat, BitVec.setWidth_eq] at hrsp
  exact ⟨_, _, u, exec_romRead_of_built hsat hidx hbuilt, by rw [hchip]; rfl, hrun, hrsp⟩

/-! ### The codes of the default table -/

/-- The first ten chips of a satellite's code with the default table. -/
def firstChips (sat : Fin 32) : List Chip := (List.range 10).map (caChip defaultConfig sat)

/-- Ten chips tell the 32 satellites apart. -/
theorem firstChips_injective : Function.Injective firstChips := List.nodup_ofFn.mp (by decide +kernel)

/-- Settles O41: two satellites' codes already differ in their first ten chips. -/
theorem defaultCodesPairwiseDistinct : Obligations.DefaultCodesPairwiseDistinct := by
  intro p q hpq
  by_contra! hsame
  exact hpq (firstChips_injective (List.map_congr_left fun i hi => hsame i (by simp at hi; omega)))

end Sys2Proof.Machine
end

section
/-! The housekeeping commands, and the fields of the status word (43_system.md R160, R161; 10_state.md R34). -/

namespace Sys2Proof.Machine

/-! ### What each command answers -/

theorem exec_nop (s : State) : exec .nop s = .next (respond 0 s) := rfl

theorem exec_status (s : State) : exec .status s = .next (respond (statusWord s) s) := rfl

/-! ### The layout of the status word -/

/-- Every field but the two single bits: with the fields to its right cut off, it is the lowest of those left. -/
theorem statusWord_fields (s : State) :
    (statusWord s).extractLsb' 0 2 = s.romState.bits ∧ (statusWord s).extractLsb' 4 4 = s.errCode ∧
    (statusWord s).extractLsb' 8 6 = s.selPrn ∧ (statusWord s).extractLsb' 14 2 = 0#2 ∧
    (statusWord s).extractLsb' 16 10 = s.chipCnt ∧ (statusWord s).extractLsb' 26 6 = s.errPrn := by
  simp (disch := decide) only [statusWord, BitVec.extractLsb'_append_eq_of_le]
  refine ⟨?romState, ?errCode, ?selPrn, ?zero, ?chipCnt, BitVec.extractLsb'_eq_self⟩
  all_goals exact BitVec.extractLsb'_append_eq_right

theorem statusWord_err (s : State) : (statusWord s).getLsbD 2 = s.err := by
  simp only [statusWord, BitVec.getLsbD_append, BitVec.getLsbD_ofBool]
  rfl

theorem statusWord_bit3 (s : State) : (statusWord s).getLsbD 3 = false := by
  simp only [statusWord, BitVec.getLsbD_append]
  rfl

/-! ### The commands -/

/-- Settles O42: `NOP` only answers 0. -/
theorem nopCommand : Obligations.NopCommand := exec_nop

/-- Settles O43: `STATUS` only answers, and what it answers is the status word. -/
theorem statusCommand : Obligations.StatusCommand := by
  intro s
  obtain ⟨hrom, hcode, hsel, hzero, hchip, hprn⟩ := statusWord_fields s
  refine ⟨statusWord s, exec_status s, ?romState, statusWord_err s, statusWord_bit3 s, hcode, hsel, hzero, hchip, hprn⟩
  case romState => rw [hrom]; cases s.romState <;> rfl

end Sys2Proof.Machine
end

section
/-! What is refused, and that the block itself never stops (60_exceptions.md R170, R172, R192). -/

namespace Sys2Proof.Machine

open Sys2Proof.Safety

/-! ### A word that is no command -/

/-- A word with bit 31, or with no printed row's match under its mask, decodes to no instruction (30_encoding.md R78). -/
theorem decode_ne_ok_of_illegal {w : Word} (hw : w.getLsbD 31 = true ∨ ∀ r ∈ opcodeMap, w &&& r.2.2 ≠ r.2.1)
    (i : Instr) : decode (.cmd32 w) ≠ .ok i := by
  intro hd
  obtain ⟨r, hreads, hmatch⟩ := decodeCmd_eq_ok_iff.mp hd
  rcases hw with hbit | hrows
  · cases hbit.symm.trans (bit31_of_match hreads.mem_cmdRows hmatch)
  · rw [opcodeMap_eq_map_cmdRows] at hrows
    exact hrows _ (List.mem_map_of_mem hreads.mem_cmdRows) hmatch

theorem runCommand_of_not_decoded {w : Word} (hd : ∀ i, decode (.cmd32 w) ≠ .ok i) (s : State) :
    runCommand w s = .next (raiseFault .illegalCmd 0 s) := by
  unfold runCommand
  split
  · exact absurd ‹_› (hd _)
  · rfl

/-- Settles O8: the word is presented, decodes to nothing, and its fault leaves what `afterFault` says. -/
theorem illegalWordRaisesIllegalCmd : Obligations.IllegalWordRaisesIllegalCmd := by
  intro s w ws ts he ht hp hq hw
  have hpres : presentNext { s with turns := ts } =
      { s with port := some w, hostQueue := ws, rsp := none, turns := ts } := presentNext_of_queued hp hq
  rw [step_of_host_presented he ht (by rw [hpres]), hpres, runCommand_of_not_decoded (decode_ne_ok_of_illegal hw),
    raiseFault_eq]
  rfl

/-! ### Configurations, and controls of a standalone unit -/

theorem tapMasks_wellFormed_iff (ms : List (TapMask × TapMask)) :
    (ms.all fun m => tapMaskWellFormed m.1 && tapMaskWellFormed m.2) = true ↔ ∀ m ∈ ms, m.1 ≠ 0 ∧ m.2 ≠ 0 := by
  simp [tapMaskWellFormed]

theorem build_of_length_ne {c : RawConfig} (h : c.tapTable.length ≠ 32) : State.build c = .refused .tapTableCount :=
  dif_neg h

theorem build_of_empty_tapSet {c : RawConfig} (h : c.tapTable.length = 32) (hm : ∃ m ∈ c.lfsrs, m.1 = 0 ∨ m.2 = 0) :
    State.build c = .refused .emptyTapSet := by
  obtain ⟨m, hmem, hempty⟩ := hm
  refine (dif_pos h).trans (if_neg fun hall => ?_)
  obtain ⟨hout, hfb⟩ := (tapMasks_wellFormed_iff c.lfsrs).mp hall m hmem
  exact hempty.elim hout hfb

theorem build_of_wellFormed {c : RawConfig} (h : c.tapTable.length = 32) (hm : ∀ m ∈ c.lfsrs, m.1 ≠ 0 ∧ m.2 ≠ 0) :
    State.build c = .next (State.initial { tapTable := ⟨c.tapTable.toArray, h⟩, eagerBuild := c.eagerBuild }
      (c.lfsrs.map fun m => LfsrUnit.fresh m.1 m.2)) :=
  (dif_pos h).trans (if_pos ((tapMasks_wellFormed_iff c.lfsrs).mpr hm))

/-- A unit with an empty tap set has no step (40_lfsr.md R100). -/
theorem onUnit_of_empty_tapSet {f : LfsrUnit → LfsrUnit} {s : State} {u : LfsrUnit}
    (hu : s.lfsrs[s.lfsrAt]? = some u) (he : u.outTaps = 0 ∨ u.fbTaps = 0) : onUnit f s = .refused .emptyTapSet := by
  simp only [onUnit, hu, if_pos he]

/-- Each of the three controls is the one operation `onUnit` (40_lfsr.md R103 to R105). -/
theorem exec_control_eq_onUnit {i : Instr} (hi : i ∈ [Instr.lfsrHold, Instr.lfsrStep, Instr.lfsrInit]) :
    ∃ f, ∀ s, exec i s = onUnit f s := by
  simp only [List.mem_cons, List.not_mem_nil, or_false] at hi
  rcases hi with rfl | rfl | rfl
  exacts [⟨_, fun _ => rfl⟩, ⟨_, fun _ => rfl⟩, ⟨_, fun _ => rfl⟩]

/-- Control 11 is refused before the unit is looked at (40_lfsr.md R106). -/
theorem lfsrTurn_of_initAndStep (k : Nat) (s : State) : lfsrTurn k false 0b11 s = .refused .lfsrInitAndStep := rfl

/-- Settles O9: by the length of the table, then by the tap sets; a unit by its tap sets, a clock by its control. -/
theorem refusedConfigurationsAndControl : Obligations.RefusedConfigurationsAndControl := by
  refine ⟨fun c => build_of_length_ne, fun c => build_of_empty_tapSet, fun c h hm => ?built, fun s u hu he i hi => ?empty,
    fun s k ts he ht => (step_of_turn he ht).trans (lfsrTurn_of_initAndStep k _)⟩
  case built => exact ⟨_, build_of_wellFormed h hm, rfl, rfl, rfl⟩
  case empty =>
    obtain ⟨f, hf⟩ := exec_control_eq_onUnit hi
    exact (hf s).trans (onUnit_of_empty_tapSet hu he)

/-! ### The block does not stop -/

theorem step_of_no_turn {s : State} (he : s.eagerDue = false) (ht : s.turns = []) : step s = .next s := by
  simp [step, nextMove, eagerFirst, he, ht]

/-- A turn of the host, of the builder or of the reset input has a next state. -/
theorem runTurn_next {u : Turn} (hu : ∀ k rst c, u ≠ .lfsr k rst c) (s : State) : ∃ t, runTurn u s = .next t := by
  cases u with
  | host => exact hostTurn_next s
  | builder first more => exact ⟨_, rfl⟩
  | lfsr k rst c => exact absurd rfl (hu k rst c)
  | rst => exact ⟨_, rfl⟩

/-- Settles O10: by what comes next: a reset, the eager start, no turn, or a turn that is no clock. -/
theorem blockDoesNotStop : Obligations.BlockDoesNotStop := by
  intro s hlfsr
  by_cases hr : ResetNext s
  · exact ⟨_, step_of_resetNext hr⟩
  · cases he : s.eagerDue with
    | true => exact ⟨_, step_of_eager he hr⟩
    | false =>
      cases ht : s.turns with
      | nil => exact ⟨s, step_of_no_turn he ht⟩
      | cons u ts =>
        rw [step_of_turn he ht]
        exact runTurn_next (fun k rst c hu => hlfsr k rst c ts (hu ▸ ht)) _

end Sys2Proof.Machine
end

section
/-! The error latch: who writes it, and what stays in it (60_exceptions.md R170, R171, R173, R182, R183). -/

namespace Sys2Proof.Machine

open Sys2Proof.Safety

/-! ### A command that answers an error -/

/-- Only a raised fault answers an error: every other command answers without one, or holds. -/
theorem exec_cmd_error_response {i : Instr} {s t : State} {d : Word} (hf : i.format = .cmd32) (h : exec i s = .next t)
    (hrsp : t.rsp = some ⟨true, d⟩) : ∃ c p, t = raiseFault c p s := by
  rcases exec_cmd_cases hf h with
    hfault | ⟨d', rfl, -⟩ | ⟨prn, sat, -, -, -, rfl⟩ | ⟨-, -, rfl⟩ | ⟨-, rfl⟩ |
      ⟨prn, idx, -, -, -, ⟨-, rfl⟩ | ⟨-, rfl⟩⟩
  case inl => exact hfault
  all_goals cases hrsp

/-- Settles O44: the error is a raised fault, whose code is in 1..8. -/
theorem faultHasNoOtherEffect : Obligations.FaultHasNoOtherEffect := by
  intro i s t d hf h hrsp
  obtain ⟨c, p, rfl⟩ := exec_cmd_error_response hf h hrsp
  cases hrsp
  obtain ⟨hlow, hhigh⟩ := faultBits_range c
  exact ⟨c.bits, p, hlow, hhigh, rfl, raiseFault_eq c p s⟩

/-! ### What a step does to the latch -/

/-- The error latch: `ERR`, `ERR_CODE` and `ERR_PRN`. -/
def latchOf (s : State) : Bool × BitVec 4 × BitVec 6 := (s.err, s.errCode, s.errPrn)

theorem latchOf_eq_iff {s t : State} :
    latchOf t = latchOf s ↔ t.err = s.err ∧ t.errCode = s.errCode ∧ t.errPrn = s.errPrn := by
  simp only [latchOf, Prod.mk.injEq]

/-- A latch that is set records no later fault (60_exceptions.md R182). -/
theorem latch_of_err {s : State} (h : s.err = true) (c : FaultCode) (p : BitVec 6) : latch c p s = s := if_pos h

theorem latch_of_no_err {s : State} (h : s.err = false) (c : FaultCode) (p : BitVec 6) :
    latch c p s = { s with err := true, errCode := c.bits, errPrn := p } := if_neg (by simp [h])

theorem latchOf_latch_congr {s t : State} (h : latchOf t = latchOf s) (c : FaultCode) (p : BitVec 6) :
    latchOf (latch c p t) = latchOf (latch c p s) := by
  obtain ⟨herr, hcode, hprn⟩ := latchOf_eq_iff.mp h
  simp [latchOf_eq_iff, herr, hcode, hprn]

/-- The latch of `t` is that of `s`, or that of `s` with one fault offered to it. -/
def LatchMoved (s t : State) : Prop := latchOf t = latchOf s ∨ ∃ c p, latchOf t = latchOf (latch c p s)

theorem LatchMoved.congr {s t u : State} (h : LatchMoved s t) (hu : latchOf u = latchOf t) : LatchMoved s u := by
  rwa [LatchMoved, hu]

/-- A further fault finds the latch as it was, or set and so closed. -/
theorem LatchMoved.after_latch {s t : State} (h : LatchMoved s t) (c : FaultCode) (p : BitVec 6) :
    LatchMoved s (latch c p t) := by
  rcases h with h | ⟨c', p', h⟩
  · exact .inr ⟨c, p, latchOf_latch_congr h c p⟩
  · obtain ⟨herr, -⟩ := latchOf_eq_iff.mp h
    rw [latch_of_err (herr.trans (latch_err c' p' s))]
    exact .inr ⟨c', p', h⟩

theorem LatchMoved.after_command {s t u : State} {i : Instr} (hf : i.format = .cmd32) (h : exec i t = .next u)
    (ht : LatchMoved s t) : LatchMoved s u := by
  rcases exec_cmd_fault_or_latch hf h with ⟨c, p, rfl⟩ | hlatch
  · exact (ht.after_latch c p).congr rfl
  · exact ht.congr (latchOf_eq_iff.mpr hlatch)

/-- Of the builder's moves only the check of a malformed entry latches a fault (60_exceptions.md R183). -/
theorem LatchMoved.after_builderMove {s t : State} (n : Nat) (ht : LatchMoved s t) : LatchMoved s (builderMove n t) := by
  rcases builderMove_cases n t with
    ⟨-, e⟩ | ⟨-, ⟨k, c, -, -, e⟩ | ⟨k, -, -, e⟩ | ⟨k, -, e⟩ | ⟨k, i, -, e⟩ | ⟨-, e⟩⟩ <;> rw [e]
  case inr.inl => exact (ht.after_latch c (prnOfSat k)).congr rfl
  all_goals exact ht.congr rfl

/-- Everything a step that is no reset can do to the latch. -/
theorem step_latchMoved {s t : State} (h : step s = .next t) (hr : ¬ ResetNext s) : LatchMoved s t :=
  nextMove_keeps (P := LatchMoved s)
    (turns := fun _ _ hu => hu.congr rfl)
    (unit := fun _ _ _ hu => hu.congr rfl)
    (present := fun _ _ _ hu => hu.congr rfl)
    (command := fun _ _ _ => LatchMoved.after_command)
    (illegal := fun _ hu => (hu.after_latch .illegalCmd 0).congr rfl)
    (build := fun n _ => LatchMoved.after_builderMove n)
    (eager := fun u hu => hu.congr (latchOf_eq_iff.mpr (by simp [eagerStart])))
    (reset := fun hrst => absurd hrst hr)
    h (.inl rfl)

/-- Settles O45: a fault offered to a latch that is set leaves it. -/
theorem onlyResetClearsTheLatch : Obligations.OnlyResetClearsTheLatch := by
  intro s t h hr herr
  have hlatch : latchOf t = latchOf s := by
    rcases step_latchMoved h hr with e | ⟨c, p, e⟩
    · exact e
    · rwa [latch_of_err herr] at e
  obtain ⟨herr', hcode, hprn⟩ := latchOf_eq_iff.mp hlatch
  exact ⟨herr'.trans herr, hcode, hprn⟩

/-! ### The invariant of the latch -/

theorem latchConsistent_congr {s t : State} (h : latchOf t = latchOf s) : LatchConsistent t ↔ LatchConsistent s := by
  obtain ⟨herr, hcode, hprn⟩ := latchOf_eq_iff.mp h
  rw [LatchConsistent, LatchConsistent, herr, hcode, hprn]

theorem latchConsistent_latch (c : FaultCode) (p : BitVec 6) {s : State} (h : LatchConsistent s) :
    LatchConsistent (latch c p s) := by
  cases herr : s.err with
  | true => rwa [latch_of_err herr]
  | false =>
    rw [latch_of_no_err herr]
    exact ⟨nofun, fun _ => faultBits_range c⟩

/-- A reset clears the latch (10_state.md R45). -/
theorem latchConsistent_resetBlock (s : State) : LatchConsistent (resetBlock s) := ⟨fun _ => ⟨rfl, rfl⟩, nofun⟩

/-- Settles O54: a reset clears the latch; any other step leaves it or offers it a fault of 1..8. -/
theorem stepKeepsLatchConsistent : Obligations.StepKeepsLatchConsistent := by
  intro s t h hs
  by_cases hr : ResetNext s
  · cases (step_of_resetNext hr).symm.trans h
    exact latchConsistent_resetBlock _
  · rcases step_latchMoved h hr with e | ⟨c, p, e⟩ <;> rw [latchConsistent_congr e]
    · exact hs
    · exact latchConsistent_latch c p hs

/-! ### A build that fails -/

section
variable {s : State} {sat : Fin 32}

theorem builderMove_of_check (n : Nat) (hb : s.romState = .building) (hc : s.cursor = .check sat) :
    builderMove n s = builderCheck sat s := by
  simp only [builderMove, hb, hc]

theorem builderCheck_of_wellFormed (he : checkEntry (tapEntry s sat) = none) :
    builderCheck sat s = { s with cursor := afterSat sat .check (.construct 0) } := by
  simp only [builderCheck, he]

theorem builderCheck_of_malformed {c : FaultCode} (he : checkEntry (tapEntry s sat) = some c) :
    builderCheck sat s = { latch c (prnOfSat sat) s with romState := .failed } := by
  simp only [builderCheck, he]

/-- From the check of satellite `j + 1`, with well-formed entries before that of `sat + 1`, one move a satellite leads to
the check of `sat + 1`, and nothing but the cursor has changed before it (42_code_rom.md R141). -/
theorem builderStep_reaches_check {j : Fin 32} {first : Nat} {more : List Nat} (hb : s.romState = .building)
    (hc : s.cursor = .check j) (hok : ∀ k : Fin 32, k.val < sat.val → checkEntry (tapEntry s k) = none)
    (hlen : j.val + more.length = sat.val) :
    builderStep first more s = builderCheck sat { s with cursor := .check sat } := by
  induction more generalizing s j first with
  | nil =>
    obtain rfl : j = sat := Fin.ext hlen
    rw [← hc]
    exact builderMove_of_check first hb hc
  | cons m ms ih =>
    rw [List.length_cons] at hlen
    have hnext : builderMove first s = { s with cursor := .check ⟨j.val + 1, by omega⟩ } := by
      rw [builderMove_of_check first hb hc, builderCheck_of_wellFormed (hok j (by omega)), afterSat, dif_pos]
    calc builderStep first (m :: ms) s
      _ = builderStep m ms (builderMove first s) := rfl
      _ = builderStep m ms { s with cursor := .check ⟨j.val + 1, by omega⟩ } := by rw [hnext]
      _ = builderCheck sat { s with cursor := .check sat } := ih hb rfl hok (by simp only; omega)

end

/-- Settles O29: the moves lead to the check of the malformed entry, which latches its fault if the latch is clear. -/
theorem failedBuildLatchesLowest : Obligations.FailedBuildLatchesLowest := by
  intro s sat c moves hb hc hok hbad hlen
  obtain ⟨first, more, rfl⟩ := List.exists_cons_of_length_eq_add_one hlen
  have hmoves : builderMoves (first :: more) s =
      { latch c (prnOfSat sat) { s with cursor := .check sat } with romState := .failed } :=
    (builderStep_reaches_check hb hc hok (by simpa using hlen)).trans (builderCheck_of_malformed hbad)
  rw [hmoves]
  simp [prnOfSat]

end Sys2Proof.Machine
end

section
/-! Reset (70_reset_and_hazards.md R200). -/

namespace Sys2Proof.Machine

/-- A reset makes each unit anew, all ones (10_state.md R45). -/
theorem mem_resetBlock_lfsrs {s : State} {u : LfsrUnit} (h : u ∈ (resetBlock s).lfsrs) : u.s = seed := by
  obtain ⟨v, -, rfl⟩ := List.mem_map.mp h
  rfl

/-- Settles O51: the step is the reset, whose values are `State.initial`'s but for what lies outside the block. -/
theorem resetTakesEveryElementToItsValue : Obligations.ResetTakesEveryElementToItsValue := by
  intro s ts ht
  have hstep : step s = .next (resetBlock { s with turns := ts }) := by
    rw [step_of_resetNext (by simp [Safety.ResetNext, ht]), ht, List.tail_cons]
  obtain ⟨-, htaps⟩ := Prod.mk.inj (resetBlock_configOf { s with turns := ts })
  exact ⟨_, hstep, rfl, rfl, rfl, rfl, rfl, rfl, fun _ => rfl, rfl, rfl, rfl, rfl, rfl, rfl, rfl, List.length_map _,
    fun _ => mem_resetBlock_lfsrs, htaps, rfl⟩

end Sys2Proof.Machine
end

section
/-! The build hold, the only wait in the block (70_reset_and_hazards.md R205), and what a held `ROM.READ` answers
(R208). -/

namespace Sys2Proof.Machine

open Sys2Proof.Safety

/-! ### Which command holds -/

/-- The word is a `ROM.READ` with legal operands. -/
def IsLegalRead (w : Word) : Prop :=
  ∃ prn idx, decode (.cmd32 w) = .ok (.romRead prn idx) ∧ 1 ≤ prn.toNat ∧ prn.toNat ≤ 32 ∧ idx.toNat ≤ 1022

/-- The word holds in this state: a legal `ROM.READ` before the build has ended. -/
def Holds (w : Word) (s : State) : Prop := IsLegalRead w ∧ (s.romState = .uninit ∨ s.romState = .building)

/-- A host command completes with a response, or is a legal `ROM.READ` before the build has ended. -/
theorem exec_cmd_completes_or_holds {i : Instr} {s t : State} (hf : i.format = .cmd32) (h : exec i s = .next t) :
    (t.port = none ∧ t.rsp ≠ none) ∨
    ∃ prn idx, i = .romRead prn idx ∧ (1 ≤ prn.toNat ∧ prn.toNat ≤ 32 ∧ idx.toNat ≤ 1022) ∧
      (s.romState = .uninit ∨ s.romState = .building) := by
  rcases exec_cmd_cases hf h with
    ⟨c, p, rfl⟩ | ⟨d, rfl, -⟩ | ⟨prn, sat, -, -, -, rfl⟩ | ⟨-, -, rfl⟩ | ⟨-, rfl⟩ |
      ⟨prn, idx, hread, ⟨sat, hsat⟩, hidx, hwait⟩
  case inr.inr.inr.inr.inr =>
    exact .inr ⟨prn, idx, hread, ⟨by omega, by omega, hidx⟩, hwait.imp And.left And.left⟩
  all_goals exact .inl ⟨rfl, nofun⟩

theorem runCommand_completes {w : Word} {s t : State} (hw : ¬ Holds w s) (h : runCommand w s = .next t) :
    t.port = none ∧ t.rsp ≠ none := by
  unfold runCommand at h
  split at h
  case h_1 i hd =>
    rcases exec_cmd_completes_or_holds (decode_cmd_format hd) h with hdone | ⟨prn, idx, rfl, hlegal, hrom⟩
    · exact hdone
    · exact absurd ⟨⟨prn, idx, hd, hlegal⟩, hrom⟩ hw
  case h_2 =>
    cases h
    exact ⟨rfl, nofun⟩

/-- The lazy trigger and the hold are one: in BUILDING there is no build to start (42_code_rom.md R144). -/
theorem runCommand_of_holds {w : Word} {s : State} (hw : Holds w s) :
    runCommand w s = .next (hold (startBuild s)) := by
  obtain ⟨⟨prn, idx, hd, h1, h32, hidx⟩, hrom⟩ := hw
  obtain ⟨sat, hsat⟩ := exists_sat_of_legal h1 h32
  rw [runCommand_of_decode hd]
  rcases hrom with huninit | hbuilding
  · exact exec_romRead_of_uninit hsat hidx huninit
  · rw [exec_romRead_of_building hsat hidx hbuilding, startBuild_of_not_uninit (by simp [hbuilding])]

theorem Holds.startBuild_romState {w : Word} {s : State} (hw : Holds w s) :
    (startBuild s).romState = .building := by
  obtain ⟨-, hrom | hrom⟩ := hw <;> simp [hrom]

/-! ### The host's turn -/

/-- A held word, and the queue's head where the port is empty, stand in the port after presenting. -/
theorem presentNext_port {s : State} {w : Word}
    (h : s.port = some w ∨ (s.port = none ∧ s.hostQueue.head? = some w)) : (presentNext s).port = some w := by
  rcases h with hheld | ⟨hempty, hhead⟩
  · rw [presentNext_of_held hheld, hheld]
  · obtain ⟨ws, hq⟩ := List.head?_eq_some_iff.mp hhead
    rw [presentNext_of_queued hempty hq]

theorem holds_presentNext {w : Word} {s : State} : Holds w (presentNext s) ↔ Holds w s := by
  rw [Holds, Holds, presentNext_romState]

/-- The host's turn on a word that does not hold. -/
theorem hostTurn_completes {s t : State} {w : Word} (hp : (presentNext s).port = some w) (hw : ¬ Holds w s)
    (h : hostTurn s = .next t) : t.port = none ∧ t.rsp ≠ none := by
  rw [hostTurn_of_presented hp] at h
  exact runCommand_completes (mt holds_presentNext.mp hw) h

/-- The host's turn on a word that holds. -/
theorem hostTurn_of_holds {s : State} {w : Word} (hp : (presentNext s).port = some w) (hw : Holds w s) :
    hostTurn s = .next (hold (startBuild (presentNext s))) :=
  (hostTurn_of_presented hp).trans (runCommand_of_holds (holds_presentNext.mpr hw))

/-- Once the build has ended, the host's turn completes the command that was held. -/
theorem step_completes_of_ended {s t : State} {ts : List Turn} (he : s.eagerDue = false) (ht : s.turns = .host :: ts)
    (hended : s.romState = .built ∨ s.romState = .failed) (hp : s.port ≠ none) (h : step s = .next t) :
    t.port = none ∧ t.rsp ≠ none := by
  obtain ⟨w, hw⟩ := Option.ne_none_iff_exists'.mp hp
  have hnot : ¬ Holds w { s with turns := ts } := by
    rintro ⟨-, hrom⟩
    rcases hended with e | e <;> simp [e] at hrom
  have hport : (presentNext { s with turns := ts }).port = some w := presentNext_port (.inl hw)
  exact hostTurn_completes hport hnot ((step_of_turn he ht).symm.trans h)

/-- Settles O46: of the events that change `ROM_STATE` only a reset and a builder's turn leave BUILDING; a host's turn
holds or completes as the word does. -/
theorem theHoldIsTheOnlyWait : Obligations.TheHoldIsTheOnlyWait := by
  refine ⟨fun s t h hb hne => ?leavesBuilding, fun s t w ts he ht hw h => ?hostTurn⟩
  case leavesBuilding =>
    rcases romStateTransitions s t h (hb ▸ hne) with
      ⟨hr, -⟩ | ⟨-, -, hu, -⟩ | ⟨-, hu, -⟩ | ⟨hbuilder, -⟩
    · exact .inr hr
    · cases hb.symm.trans hu
    · cases hb.symm.trans hu
    · exact .inl hbuilder
  case hostTurn =>
    have hp : (presentNext { s with turns := ts }).port = some w := presentNext_port hw
    have hturn : hostTurn { s with turns := ts } = .next t := (step_of_turn he ht).symm.trans h
    refine ⟨fun hw' : Holds w { s with turns := ts } => ?_, fun hnot => hostTurn_completes hp hnot hturn⟩
    cases (hostTurn_of_holds hp hw').symm.trans hturn
    exact ⟨by simpa using hp, rfl, (holds_presentNext.mpr hw').startBuild_romState⟩

/-! ### What stands in the port between steps -/

theorem legalOperands_romRead_iff {prn : Prn} {idx : ChipIdx} :
    (Instr.romRead prn idx).legalOperands = true ↔ 1 ≤ prn.toNat ∧ prn.toNat ≤ 32 ∧ idx.toNat ≤ 1022 := by
  simp [Instr.legalOperands, and_assoc]

theorem portConsistent_of_port_eq_none {s : State} (h : s.port = none) : PortConsistent s :=
  fun w hw => by cases h.symm.trans hw

/-- A step that leaves the port and the response, and does not go back to UNINIT, keeps the invariant. -/
theorem portConsistent_of_fields {s t : State} (hport : t.port = s.port) (hrsp : t.rsp = s.rsp)
    (hrom : s.romState ≠ .uninit → t.romState ≠ .uninit) (h : PortConsistent s) : PortConsistent t := by
  intro w hw
  obtain ⟨hnone, hu, hread⟩ := h w (hport ▸ hw)
  exact ⟨hrsp.trans hnone, hrom hu, hread⟩

/-- A legal `ROM.READ` that holds. -/
theorem portConsistent_hold {s : State} {w : Word} (hp : s.port = some w) (hw : Holds w s) :
    PortConsistent (hold (startBuild s)) := by
  intro w' hw'
  obtain rfl : w = w' := Option.some.inj (hp.symm.trans (by simpa using hw'))
  refine ⟨rfl, by rw [hold_romState, hw.startBuild_romState]; nofun, ?_⟩
  obtain ⟨⟨prn, idx, hd, hlegal⟩, -⟩ := hw
  exact ⟨prn, idx, hd, legalOperands_romRead_iff.mpr hlegal⟩

theorem startBuild_not_uninit {s : State} (h : s.romState ≠ .uninit) : (startBuild s).romState ≠ .uninit := by
  rwa [startBuild_of_not_uninit h]

theorem builderMoves_not_uninit (moves : List Nat) {s : State} (h : s.romState ≠ .uninit) :
    (builderMoves moves s).romState ≠ .uninit :=
  builderMoves_keeps (P := fun u => u.romState ≠ .uninit) (fun n _ => builderMove_not_uninit n) moves h

theorem portConsistent_hostTurn {s t : State} (h : hostTurn s = .next t) (hs : PortConsistent s) :
    PortConsistent t := by
  cases hp : (presentNext s).port with
  | none =>
    simp only [hostTurn, hp] at h
    cases h
    exact hs
  | some w =>
    by_cases hw : Holds w s
    · cases (hostTurn_of_holds hp hw).symm.trans h
      exact portConsistent_hold hp (holds_presentNext.mpr hw)
    · exact portConsistent_of_port_eq_none (hostTurn_completes hp hw h).left

theorem portConsistent_builderStep (first : Nat) (more : List Nat) {s : State} (h : PortConsistent s) :
    PortConsistent (builderStep first more s) := by
  have hside : builderStep first more s = withBuilderSide s (builderStep first more s) :=
    builderMoves_eq_withBuilderSide (first :: more) s
  exact portConsistent_of_fields (s := s) (by rw [hside]; rfl) (by rw [hside]; rfl)
    (builderMoves_not_uninit (first :: more)) h

theorem portConsistent_runTurn {u : Turn} {s t : State} (h : runTurn u s = .next t) (hs : PortConsistent s) :
    PortConsistent t := by
  cases u with
  | host => exact portConsistent_hostTurn h hs
  | builder first more => cases h; exact portConsistent_builderStep first more hs
  | lfsr k rst c =>
    obtain ⟨i, hf, -, -, he⟩ := lfsrTurn_cases h
    obtain ⟨u, -, -, -, v, -, -, rfl⟩ := exec_ctl_cases hf he
    exact hs
  | rst => cases h; exact portConsistent_of_port_eq_none rfl

/-- Settles O58: the host's turn holds a legal `ROM.READ` or empties the port, a reset empties it, and no other move
touches it. -/
theorem stepKeepsPortConsistent : Obligations.StepKeepsPortConsistent := by
  intro s t h hs
  rcases step_cases h with ⟨-, -, rfl⟩ | ⟨-, rfl⟩ | ⟨u, ts, -, hu⟩
  · exact portConsistent_of_fields (startBuild_port s) (startBuild_rsp s) startBuild_not_uninit hs
  · exact hs
  · have hs' : PortConsistent { s with turns := ts } := hs
    exact portConsistent_runTurn hu hs'

/-! ### What a held `ROM.READ` answers -/

theorem tableWellFormed_of_built {s : State} (h : BuildConsistent s) (hrom : s.romState = .built) :
    TableWellFormed s.cfg := by
  simp only [BuildConsistent, hrom] at h
  exact h.left

theorem table_malformed_of_failed {s : State} (h : BuildConsistent s) (hrom : s.romState = .failed) :
    ¬ TableWellFormed s.cfg := by
  simp only [BuildConsistent, hrom] at h
  exact h.right

theorem codeChip_of_built {s : State} (h : BuildConsistent s) (hrom : s.romState = .built) (sat : Fin 32) {i : Nat}
    (hi : i ≤ 1022) : codeChip s (codeAddr sat i) = caChip s.cfg sat i :=
  codeChip_of_codeRead (builtTableHoldsEveryCode s h hrom sat i hi)

/-- A legal `ROM.READ` that completes finds the build ended, and the tap table alone decides how. -/
theorem exec_romRead_answer {s t : State} {w : Word} {prn : Prn} {sat : Fin 32} {idx : ChipIdx}
    (hs : BuildConsistent s) (hp : s.port = some w) (hsat : prn.toNat = sat.val + 1) (hidx : idx.toNat ≤ 1022)
    (h : exec (.romRead prn idx) s = .next t) (hdone : t.port = none) :
    (TableWellFormed s.cfg ∧ t.rsp = some ⟨false, (caChip s.cfg sat idx.toNat).setWidth 32⟩) ∨
    (¬ TableWellFormed s.cfg ∧ t.rsp = some ⟨true, 5⟩) := by
  cases hrom : s.romState with
  | uninit =>
    cases (exec_romRead_of_uninit hsat hidx hrom).symm.trans h
    cases hp.symm.trans (by simpa using hdone)
  | building =>
    cases (exec_romRead_of_building hsat hidx hrom).symm.trans h
    cases hp.symm.trans hdone
  | built =>
    cases (exec_romRead_of_built hsat hidx hrom).symm.trans h
    exact .inl ⟨tableWellFormed_of_built hs hrom, by rw [respond_rsp, codeChip_of_built hs hrom sat hidx]⟩
  | failed =>
    cases (exec_romRead_of_failed hsat hidx hrom).symm.trans h
    exact .inr ⟨table_malformed_of_failed hs hrom, rfl⟩

/-- Settles O37: the held read runs from the top, in the state as the builder left it. -/
theorem readAnswerIgnoresInterleaving : Obligations.ReadAnswerIgnoresInterleaving := by
  intro s t w prn sat idx ts hs he ht hp hd hsat hidx h hdone
  obtain ⟨-, hheld⟩ := hostStepRunsDecodedCommand
  have hexec : exec (.romRead prn idx) { s with turns := ts } = .next t := (hheld s w ts _ he ht hp hd).symm.trans h
  exact exec_romRead_answer (s := { s with turns := ts }) hs hp hsat hidx hexec hdone

end Sys2Proof.Machine
end

section
/-! Every build ends: the moves left, along the builder's moves and along a run (70_reset_and_hazards.md R209). -/

namespace Sys2Proof.Machine

open Sys2Proof.Safety

/-! ### The moves left -/

/-- A build that has begun has ended when no move is left. -/
theorem ended_of_movesLeft_eq_zero {s : State} (hu : s.romState ≠ .uninit) (h : movesLeft s = 0) :
    s.romState = .built ∨ s.romState = .failed := by
  have hb : s.romState ≠ .building := fun hb => (movesLeft_pos hb).ne' h
  cases hrom : s.romState <;> simp_all

theorem movesLeft_congr {s t : State} (hrom : t.romState = s.romState) (hcursor : t.cursor = s.cursor) :
    movesLeft t = movesLeft s := by
  rw [movesLeft, movesLeft, hrom, hcursor]

/-- Outside BUILDING no move is left. -/
theorem movesLeft_of_not_building {s : State} (h : s.romState ≠ .building) : movesLeft s = 0 := by
  unfold movesLeft
  split <;> simp_all

/-- Each move takes at least one of the moves left, if any is. -/
theorem movesLeft_builderMove_le (n : Nat) (s : State) : movesLeft (builderMove n s) ≤ movesLeft s - 1 := by
  by_cases hb : s.romState = .building
  · have hless := builderMove_movesLeft n hb
    omega
  · rw [builderMove_of_not_building n hb, movesLeft_of_not_building hb]

theorem movesLeft_builderMoves_le (moves : List Nat) (s : State) :
    movesLeft (builderMoves moves s) ≤ movesLeft s - moves.length := by
  induction moves generalizing s with
  | nil => exact le_rfl
  | cons n rest ih =>
    have hhead := movesLeft_builderMove_le n s
    have htail : movesLeft (builderMoves (n :: rest) s) ≤ movesLeft (builderMove n s) - rest.length := ih _
    rw [List.length_cons]
    omega

/-- As many moves as a build can take end it. -/
theorem builderMoves_ended {moves : List Nat} {s : State} (hb : s.romState = .building)
    (hlen : 32801 ≤ moves.length) :
    (builderMoves moves s).romState = .built ∨ (builderMoves moves s).romState = .failed := by
  refine ended_of_movesLeft_eq_zero (builderMoves_not_uninit moves (by simp [hb])) ?_
  have hle := movesLeft_builderMoves_le moves s
  have hmax := movesLeft_le s
  omega

/-! ### A step that is no reset -/

/-- A build has begun, and at most `m` moves of it are left. -/
def BegunWithin (m : Nat) (s : State) : Prop := s.romState ≠ .uninit ∧ movesLeft s ≤ m

theorem BegunWithin.congr {m : Nat} {s t : State} (hrom : t.romState = s.romState) (hcursor : t.cursor = s.cursor)
    (h : BegunWithin m s) : BegunWithin m t := by
  rwa [BegunWithin, hrom, movesLeft_congr hrom hcursor]

theorem BegunWithin.after_startBuild {m : Nat} {s : State} (h : BegunWithin m s) : BegunWithin m (startBuild s) := by
  rwa [startBuild_of_not_uninit h.left]

theorem BegunWithin.after_builderMove {m : Nat} {s : State} (n : Nat) (h : BegunWithin m s) :
    BegunWithin (m - 1) (builderMove n s) := by
  obtain ⟨hu, hle⟩ := h
  have hmove := movesLeft_builderMove_le n s
  exact ⟨builderMove_not_uninit n hu, by omega⟩

theorem BegunWithin.mono {m n : Nat} {s : State} (h : BegunWithin m s) (hmn : m ≤ n) : BegunWithin n s :=
  ⟨h.left, h.right.trans hmn⟩

theorem BegunWithin.after_command {m : Nat} {i : Instr} {s t : State} (hf : i.format = .cmd32) (he : exec i s = .next t)
    (h : BegunWithin m s) : BegunWithin m t :=
  exec_cmd_keeps
    (fault := fun c p => BegunWithin.congr (raiseFault_romState c p s) (raiseFault_cursor c p s))
    (answer := fun _ _ => id)
    (wait := fun _ => id)
    (select := fun _ _ _ _ _ => id)
    (advance := fun _ => id)
    (start := fun _ => BegunWithin.after_startBuild)
    hf he h

/-- No step but a reset takes the end of the build further away. -/
theorem BegunWithin.after_step {m : Nat} {s t : State} (hstep : step s = .next t) (hr : ¬ ResetNext s)
    (h : BegunWithin m s) : BegunWithin m t :=
  nextMove_keeps (P := BegunWithin m)
    (turns := fun _ _ => id)
    (unit := fun _ _ _ => id)
    (present := fun _ _ _ => id)
    (command := fun _ _ _ => BegunWithin.after_command)
    (illegal := fun u => BegunWithin.congr (raiseFault_romState _ _ u) (raiseFault_cursor _ _ u))
    (build := fun n _ hu => (hu.after_builderMove n).mono (Nat.sub_le m 1))
    (eager := fun _ => BegunWithin.after_startBuild)
    (reset := fun hrst => absurd hrst hr)
    hstep h

/-- The builder's turn brings the end of the build nearer. -/
theorem BegunWithin.after_builderTurn {m first : Nat} {more : List Nat} {ts : List Turn} {s t : State}
    (hstep : step s = .next t) (he : s.eagerDue = false) (ht : s.turns = .builder first more :: ts)
    (h : BegunWithin m s) : BegunWithin (m - 1) t := by
  cases (step_of_turn he ht).symm.trans hstep
  have hfirst : BegunWithin (m - 1) (builderMove first { s with turns := ts }) :=
    BegunWithin.after_builderMove (s := { s with turns := ts }) first h
  exact builderMoves_keeps (fun n _ hu => (hu.after_builderMove n).mono (Nat.sub_le _ 1)) more hfirst

/-! ### Schedules -/

theorem builderTurns_succ (sch : Schedule) (n : Nat) :
    builderTurns sch (n + 1) = builderTurns sch n + (isBuilderTurn (sch n)).toNat := by
  rw [builderTurns, List.range_succ, List.filter_append, List.length_append, ← builderTurns]
  cases h : isBuilderTurn (sch n) <;> simp [h]

theorem builderTurns_mono (sch : Schedule) : Monotone (builderTurns sch) :=
  monotone_nat_of_le_succ fun n => by rw [builderTurns_succ]; exact Nat.le_add_right _ _

/-- Under fairness the builder has as many turns as one likes. -/
theorem exists_le_builderTurns {sch : Schedule} (h : BuilderFair sch) (k : Nat) : ∃ n, k ≤ builderTurns sch n := by
  induction k with
  | zero => exact ⟨0, Nat.zero_le _⟩
  | succ k ih =>
    obtain ⟨n, hn⟩ := ih
    obtain ⟨m, hnm, hm⟩ := h n
    have hmono := builderTurns_mono sch hnm
    refine ⟨m + 1, ?_⟩
    rw [builderTurns_succ, hm, Bool.toNat_true]
    omega

theorem exists_of_isBuilderTurn {u : Turn} (h : isBuilderTurn u = true) : ∃ first more, u = .builder first more := by
  cases u <;> simp_all [isBuilderTurn]

/-- The schedule that leaves out the first turn. -/
def laterTurns (sch : Schedule) : Schedule := fun n => sch (n + 1)

theorem BuilderFair.laterTurns {sch : Schedule} (h : BuilderFair sch) : BuilderFair (laterTurns sch) := by
  intro n
  obtain ⟨m, hnm, hm⟩ := h (n + 1)
  obtain ⟨k, rfl⟩ := Nat.exists_eq_add_of_le' (show 1 ≤ m by omega)
  exact ⟨k, by omega, hm⟩

/-! ### Runs without a reset -/

theorem not_resetNext_of_turn {u : Turn} (h : u ≠ .rst) (s : State) : ¬ ResetNext { s with turns := [u] } := by
  simpa [ResetNext] using h

section
variable {sch : Schedule} {run : Nat → State} (hrun : Follows sch run) (hno : ∀ k, sch k ≠ .rst)
include hrun hno

/-- The eager start is not due after the first step. -/
theorem eagerDue_run_succ (n : Nat) : (run (n + 1)).eagerDue = false :=
  eagerDue_eq_false_of_step (hrun n) (not_resetNext_of_turn (hno n) (run n))

theorem eagerDue_run (he : (run 0).eagerDue = false) : ∀ n, (run n).eagerDue = false
  | 0 => he
  | n + 1 => eagerDue_run_succ hrun hno n

/-- Each turn of the builder leaves one move less. -/
theorem begunWithin_run (he : (run 0).eagerDue = false) (hu : (run 0).romState ≠ .uninit) (n : Nat) :
    BegunWithin (32801 - builderTurns sch n) (run n) := by
  induction n with
  | zero => exact ⟨hu, movesLeft_le _⟩
  | succ n ih =>
    have ih' : BegunWithin (32801 - builderTurns sch n) { run n with turns := [sch n] } := ih
    rw [builderTurns_succ, Nat.sub_add_eq]
    cases hturn : isBuilderTurn (sch n) with
    | false => exact ih'.after_step (hrun n) (not_resetNext_of_turn (hno n) (run n))
    | true =>
      obtain ⟨first, more, hsch⟩ := exists_of_isBuilderTurn hturn
      exact ih'.after_builderTurn (hrun n) (eagerDue_run hrun hno he n) (by rw [hsch])

/-- The build has ended once the builder has had as many turns as a build can take moves. -/
theorem run_ended (he : (run 0).eagerDue = false) (hu : (run 0).romState ≠ .uninit) {n : Nat}
    (hn : 32801 ≤ builderTurns sch n) : (run n).romState = .built ∨ (run n).romState = .failed := by
  obtain ⟨hu', hle⟩ := begunWithin_run hrun hno he hu n
  exact ended_of_movesLeft_eq_zero hu' (by omega)

/-- Under fairness the build ends, and it has ended from then on. The run is taken from its second state on, where the
eager start is not due. -/
theorem run_ends_of_fair (hfair : BuilderFair sch) (hu : (run 0).romState ≠ .uninit) :
    ∃ n, ∀ m, n ≤ m → (run (m + 1)).romState = .built ∨ (run (m + 1)).romState = .failed := by
  have hbegun : BegunWithin 32801 (run 1) :=
    BegunWithin.after_step (s := { run 0 with turns := [sch 0] }) (hrun 0) (not_resetNext_of_turn (hno 0) (run 0))
      ⟨hu, movesLeft_le _⟩
  obtain ⟨n, hn⟩ := exists_le_builderTurns (BuilderFair.laterTurns hfair) 32801
  exact ⟨n, fun m hm => run_ended (sch := laterTurns sch) (run := fun k => run (k + 1)) (fun k => hrun (k + 1))
    (fun k => hno (k + 1)) (eagerDue_run_succ hrun hno 0) hbegun.left (hn.trans (builderTurns_mono _ hm))⟩

end

/-- Settles O30: the moves left bound the builder's moves and its turns; fairness gives the turns; in BUILT and FAILED
no command holds. -/
theorem everyBuildEnds : Obligations.EveryBuildEnds := by
  refine ⟨fun s moves => builderMoves_ended, fun sch run n hrun hno he hb => run_ended hrun hno he (by simp [hb]),
    fun sch run hrun hno hfair hb => ?_⟩
  obtain ⟨n, hended⟩ := run_ends_of_fair hrun hno hfair (by simp [hb])
  refine ⟨n + 1, fun m hm => ?_⟩
  obtain ⟨k, rfl⟩ := Nat.exists_eq_add_of_le' (show 1 ≤ m by omega)
  have hk := hended k (by omega)
  exact ⟨hk, fun hhost hp => step_completes_of_ended (s := { run (k + 1) with turns := [sch (k + 1)] })
    (eagerDue_run_succ hrun hno k) (by rw [hhost]) hk hp (hrun (k + 1))⟩

end Sys2Proof.Machine
end
